-- ==== Sys2Proof/Word.lean ====
section
/-! DEFINITION. The value types of the machine: the widths of 00_scope.md rule R3 (`XLEN` 8, `ILEN` 16, `NREGS` 32).
Bit 0 is the least significant bit of every value (00_scope.md rule R4). -/

namespace Sys2Proof

/-- The contents of a general register, and an 8-bit constant (10_state.md rule R20): `u8`. -/
abbrev Byte := BitVec 8

/-- An instruction word, and the value of a register pair (30_encoding.md rule R60, 10_state.md rule R22): `u16`. -/
abbrev Word := BitVec 16

/-- The number of a general register, R0 to R31 (10_state.md rule R20). -/
abbrev RegNum := Fin 32

end Sys2Proof
end

