-- ==== Sys2Proof/Syntax.lean ====
section
/-! DEFINITION. The 24 instructions (00_scope.md rule R2), one constructor for each row of the opcode table, in the
order of the source. Operands as the assembler writes them (30_encoding.md rule R74): the destination first. -/

namespace Sys2Proof

/-- An instruction with its operands. Which operands an encoding can hold is WellFormed.lean's matter. -/
inductive Instr where
  /-- `AND Rd, Rr`, rule R101. -/
  | and (d r : RegNum)
  /-- `ANDI Rd, K`, rule R102. -/
  | andi (d : RegNum) (k : Byte)
  /-- `OR Rd, Rr`, rule R103. -/
  | or (d r : RegNum)
  /-- `ORI Rd, K`, rule R104. -/
  | ori (d : RegNum) (k : Byte)
  /-- `EOR Rd, Rr`, rule R105. -/
  | eor (d r : RegNum)
  /-- `LSL Rd`, rule R111; its words are those of `ADD Rd, Rd` (rule R70). -/
  | lsl (d : RegNum)
  /-- `LSR Rd`, rule R112. -/
  | lsr (d : RegNum)
  /-- `ROL Rd`, rule R113; its words are those of `ADC Rd, Rd` (rule R70). -/
  | rol (d : RegNum)
  /-- `ROR Rd`, rule R114. -/
  | ror (d : RegNum)
  /-- `ASR Rd`, rule R115. -/
  | asr (d : RegNum)
  /-- `SER Rd`, rule R121. -/
  | ser (d : RegNum)
  /-- `CLR Rd`, rule R122; its words are those of `EOR Rd, Rd` (rule R70). -/
  | clr (d : RegNum)
  /-- `INC Rd`, rule R131. -/
  | inc (d : RegNum)
  /-- `DEC Rd`, rule R132. -/
  | dec (d : RegNum)
  /-- `ADD Rd, Rr`, rule R141. -/
  | add (d r : RegNum)
  /-- `SUB Rd, Rr`, rule R142. -/
  | sub (d r : RegNum)
  /-- `SUBI Rd, K`, rule R143. -/
  | subi (d : RegNum) (k : Byte)
  /-- `ADC Rd, Rr`, rule R144. -/
  | adc (d r : RegNum)
  /-- `SBC Rd, Rr`, rule R145. -/
  | sbc (d r : RegNum)
  /-- `SBCI Rd, K`, rule R146. -/
  | sbci (d : RegNum) (k : Byte)
  /-- `ADIW Rdl, K`, rule R151. -/
  | adiw (dl : RegNum) (k : BitVec 6)
  /-- `SBIW Rdl, K`, rule R152. -/
  | sbiw (dl : RegNum) (k : BitVec 6)
  /-- `COM Rd`, rule R161. -/
  | com (d : RegNum)
  /-- `NEG Rd`, rule R162. -/
  | neg (d : RegNum)
deriving DecidableEq, Repr

end Sys2Proof
end

