-- ==== Sys2Proof/WellFormed.lean ====
section
/-! DEFINITION. Which operands each instruction can name (10_state.md rule R21). The other ranges of the spec are in the
types: a register number is below 32, an 8-bit constant below 256, a 6-bit constant below 64 (30_encoding.md rule R66). -/

namespace Sys2Proof

/-- One of R16 to R31, the registers a four-bit field names (30_encoding.md rules R62, R63; 90_conflicts.md C3). -/
def isUpperReg (d : RegNum) : Bool := decide (16 ≤ d.val)

/-- The low register of one of the four pairs, R24, R26, R28 or R30 (10_state.md rule R22). -/
def isPairLow (d : RegNum) : Bool := d == 24 || d == 26 || d == 28 || d == 30

/-- The operands are such as an encoding can hold (rule R21). An operand outside has no encoding and the machine never
sees it (93_implementation_defined.md U16; log 15). -/
def Instr.wellFormed : Instr → Bool
  | .and _ _ => true
  | .andi d _ => isUpperReg d
  | .or _ _ => true
  | .ori d _ => isUpperReg d
  | .eor _ _ => true
  | .lsl _ => true
  | .lsr _ => true
  | .rol _ => true
  | .ror _ => true
  | .asr _ => true
  | .ser d => isUpperReg d
  | .clr _ => true
  | .inc _ => true
  | .dec _ => true
  | .add _ _ => true
  | .sub _ _ => true
  | .subi d _ => isUpperReg d
  | .adc _ _ => true
  | .sbc _ _ => true
  | .sbci d _ => isUpperReg d
  | .adiw dl _ => isPairLow dl
  | .sbiw dl _ => isPairLow dl
  | .com _ => true
  | .neg _ => true

end Sys2Proof
end

