-- ==== Sys2Proof/Decode.lean ====
section
/-! DEFINITION. The decoder of 30_encoding.md rule R71, total on all 65 536 words, and the encoder, its inverse. The
leftmost character of an encoding row is bit 15 (00_scope.md rule R5). -/

namespace Sys2Proof

/-! ### The fields of a word (rules R61 to R65) -/

/-- `d = uint(w[8:4])`, formats RR and R1. -/
def fieldD (w : Word) : RegNum := (w.extractLsb' 4 5).toFin

/-- `r = uint(w[9] :: w[3:0])`, format RR. -/
def fieldR (w : Word) : RegNum := (w.extractLsb' 9 1 ++ w.extractLsb' 0 4 : BitVec 5).toFin

/-- `d = 16 + uint(w[7:4])`, formats RI and SER. -/
def fieldUpperD (w : Word) : RegNum := Fin.ofNat 32 (16 + (w.extractLsb' 4 4).toNat)

/-- `K = w[11:8] :: w[3:0]`, format RI. -/
def fieldK8 (w : Word) : Byte := w.extractLsb' 8 4 ++ w.extractLsb' 0 4

/-- `dl = 24 + 2 * uint(w[5:4])`, format WI. -/
def fieldPairLow (w : Word) : RegNum := Fin.ofNat 32 (24 + 2 * (w.extractLsb' 4 2).toNat)

/-- `K = w[7:6] :: w[3:0]`, format WI. -/
def fieldK6 (w : Word) : BitVec 6 := w.extractLsb' 6 2 ++ w.extractLsb' 0 4

/-! ### The decoder -/

/-- Rule R71, test by test. `none` is "none of the 24": the step then refuses the word by name (rule R72). A word of LSL,
ROL or CLR decodes to ADD, ADC or EOR (rule R70, decision D12; log 14). SBC's row is the spec's choice (rule R69; log 7). -/
def decode (w : Word) : Option Instr :=
  if w &&& 0xFC00#16 = 0x0800#16 then some (.sbc (fieldD w) (fieldR w))
  else if w &&& 0xFC00#16 = 0x0C00#16 then some (.add (fieldD w) (fieldR w))
  else if w &&& 0xFC00#16 = 0x1800#16 then some (.sub (fieldD w) (fieldR w))
  else if w &&& 0xFC00#16 = 0x1C00#16 then some (.adc (fieldD w) (fieldR w))
  else if w &&& 0xFC00#16 = 0x2000#16 then some (.and (fieldD w) (fieldR w))
  else if w &&& 0xFC00#16 = 0x2400#16 then some (.eor (fieldD w) (fieldR w))
  else if w &&& 0xFC00#16 = 0x2800#16 then some (.or (fieldD w) (fieldR w))
  else if w &&& 0xF000#16 = 0x4000#16 then some (.sbci (fieldUpperD w) (fieldK8 w))
  else if w &&& 0xF000#16 = 0x5000#16 then some (.subi (fieldUpperD w) (fieldK8 w))
  else if w &&& 0xF000#16 = 0x6000#16 then some (.ori (fieldUpperD w) (fieldK8 w))
  else if w &&& 0xF000#16 = 0x7000#16 then some (.andi (fieldUpperD w) (fieldK8 w))
  else if w &&& 0xFF0F#16 = 0xEF0F#16 then some (.ser (fieldUpperD w))
  else if w &&& 0xFE0F#16 = 0x9400#16 then some (.com (fieldD w))
  else if w &&& 0xFE0F#16 = 0x9401#16 then some (.neg (fieldD w))
  else if w &&& 0xFE0F#16 = 0x9403#16 then some (.inc (fieldD w))
  else if w &&& 0xFE0F#16 = 0x9405#16 then some (.asr (fieldD w))
  else if w &&& 0xFE0F#16 = 0x9406#16 then some (.lsr (fieldD w))
  else if w &&& 0xFE0F#16 = 0x9407#16 then some (.ror (fieldD w))
  else if w &&& 0xFE0F#16 = 0x940A#16 then some (.dec (fieldD w))
  else if w &&& 0xFF00#16 = 0x9600#16 then some (.adiw (fieldPairLow w) (fieldK6 w))
  else if w &&& 0xFF00#16 = 0x9700#16 then some (.sbiw (fieldPairLow w) (fieldK6 w))
  else none

/-! ### Words and bytes (20_memory.md rule R42, decision D3; log 5) -/

/-- The word whose low byte lies first: `byte[2a+1] :: byte[2a]`. -/
def wordOfBytes (lo hi : Byte) : Word := hi ++ lo

/-- The low byte of a word, at the lower address. -/
def lowByte (w : Word) : Byte := w.extractLsb' 0 8

/-- The high byte of a word, at the higher address. -/
def highByte (w : Word) : Byte := w.extractLsb' 8 8

/-- Why a byte image does not start with an instruction. -/
inductive DecodeError where
  /-- The first word is none of the 24 (rule R72). Safe: nothing is run. -/
  | outsideTable (w : Word)
  /-- Fewer than two bytes are left: an instruction is exactly one word (rule R60). Safe: nothing is run. -/
  | truncated
deriving DecidableEq, Repr

/-- The first instruction of a byte image and the bytes after it. -/
def decodeBytes : List Byte → Except DecodeError (Instr × List Byte)
  | lo :: hi :: rest =>
    match decode (wordOfBytes lo hi) with
    | some i => .ok (i, rest)
    | none => .error (.outsideTable (wordOfBytes lo hi))
  | [_] => .error .truncated
  | [] => .error .truncated

/-- The decoder on an instruction numbered as the opcode table numbers it: bit 0 of `w` is the word's bit 0; the bits at
and above `nbits` are 0. -/
def decodeTableWord (nbits w : Nat) : Option Instr :=
  let word := BitVec.ofNat 16 (w % 2 ^ nbits)
  match decodeBytes [lowByte word, highByte word] with
  | .ok (i, _) => some i
  | .error _ => none

/-! ### The encoder -/

/-- The five bits of a register number. -/
def regBits (d : RegNum) : BitVec 5 := BitVec.ofNat 5 d.val

/-- The four bits of one of R16 to R31. -/
def upperRegBits (d : RegNum) : BitVec 4 := BitVec.ofNat 4 (d.val - 16)

/-- The two bits that name the pair whose low register is `dl`. -/
def pairBits (dl : RegNum) : BitVec 2 := BitVec.ofNat 2 ((dl.val - 24) / 2)

/-- Format RR, `oooo oord dddd rrrr` (rule R61). -/
def encodeRR (o : BitVec 6) (d r : RegNum) : Word :=
  o ++ (regBits r).extractLsb' 4 1 ++ regBits d ++ (regBits r).extractLsb' 0 4

/-- Format RI, `oooo KKKK dddd KKKK` (rule R62); SER is this layout with its constant fixed (rule R63). -/
def encodeRI (o : BitVec 4) (d : RegNum) (k : Byte) : Word :=
  o ++ k.extractLsb' 4 4 ++ upperRegBits d ++ k.extractLsb' 0 4

/-- Format R1, `1001 010d dddd ffff` (rule R64). -/
def encodeR1 (f : BitVec 4) (d : RegNum) : Word := 0b1001010#7 ++ regBits d ++ f

/-- Format WI, `1001 011s KKdd KKKK` (rule R65). -/
def encodeWI (sel : BitVec 1) (dl : RegNum) (k : BitVec 6) : Word :=
  0b1001011#7 ++ sel ++ k.extractLsb' 4 2 ++ pairBits dl ++ k.extractLsb' 0 4

/-- The fields of an instruction placed by rules R61 to R65; an instruction that is another name writes d into both
register fields (rule R70). Meant for well-formed operands. -/
def encodeWord : Instr → Word
  | .and d r => encodeRR 0b001000#6 d r
  | .andi d k => encodeRI 0b0111#4 d k
  | .or d r => encodeRR 0b001010#6 d r
  | .ori d k => encodeRI 0b0110#4 d k
  | .eor d r => encodeRR 0b001001#6 d r
  | .lsl d => encodeRR 0b000011#6 d d
  | .lsr d => encodeR1 0b0110#4 d
  | .rol d => encodeRR 0b000111#6 d d
  | .ror d => encodeR1 0b0111#4 d
  | .asr d => encodeR1 0b0101#4 d
  | .ser d => encodeRI 0b1110#4 d 0xFF#8
  | .clr d => encodeRR 0b001001#6 d d
  | .inc d => encodeR1 0b0011#4 d
  | .dec d => encodeR1 0b1010#4 d
  | .add d r => encodeRR 0b000011#6 d r
  | .sub d r => encodeRR 0b000110#6 d r
  | .subi d k => encodeRI 0b0101#4 d k
  | .adc d r => encodeRR 0b000111#6 d r
  | .sbc d r => encodeRR 0b000010#6 d r
  | .sbci d k => encodeRI 0b0100#4 d k
  | .adiw dl k => encodeWI 0#1 dl k
  | .sbiw dl k => encodeWI 1#1 dl k
  | .com d => encodeR1 0b0000#4 d
  | .neg d => encodeR1 0b0001#4 d

/-- The word of an instruction; an operand no encoding holds is refused (93_implementation_defined.md U16). -/
def encode (i : Instr) : Option Word := if i.wellFormed then some (encodeWord i) else none

/-- The word as the two bytes of an image, low byte first. -/
def encodeBytes (i : Instr) : Option (List Byte) := (encode i).map fun w => [lowByte w, highByte w]

/-! ### Names -/

/-- The instruction the decoder returns for this one's word (rule R70): LSL, ROL and CLR are ADD, ADC and EOR with r = d. -/
def Instr.canonical : Instr → Instr
  | .lsl d => .add d d
  | .rol d => .adc d d
  | .clr d => .eor d d
  | .and d r => .and d r
  | .andi d k => .andi d k
  | .or d r => .or d r
  | .ori d k => .ori d k
  | .eor d r => .eor d r
  | .lsr d => .lsr d
  | .ror d => .ror d
  | .asr d => .asr d
  | .ser d => .ser d
  | .inc d => .inc d
  | .dec d => .dec d
  | .add d r => .add d r
  | .sub d r => .sub d r
  | .subi d k => .subi d k
  | .adc d r => .adc d r
  | .sbc d r => .sbc d r
  | .sbci d k => .sbci d k
  | .adiw dl k => .adiw dl k
  | .sbiw dl k => .sbiw dl k
  | .com d => .com d
  | .neg d => .neg d

/-- The mnemonic, as the opcode table spells it. -/
def Instr.mnemonic : Instr → String
  | .and _ _ => "AND"
  | .andi _ _ => "ANDI"
  | .or _ _ => "OR"
  | .ori _ _ => "ORI"
  | .eor _ _ => "EOR"
  | .lsl _ => "LSL"
  | .lsr _ => "LSR"
  | .rol _ => "ROL"
  | .ror _ => "ROR"
  | .asr _ => "ASR"
  | .ser _ => "SER"
  | .clr _ => "CLR"
  | .inc _ => "INC"
  | .dec _ => "DEC"
  | .add _ _ => "ADD"
  | .sub _ _ => "SUB"
  | .subi _ _ => "SUBI"
  | .adc _ _ => "ADC"
  | .sbc _ _ => "SBC"
  | .sbci _ _ => "SBCI"
  | .adiw _ _ => "ADIW"
  | .sbiw _ _ => "SBIW"
  | .com _ => "COM"
  | .neg _ => "NEG"

/-! ### The table of rule R68 -/

/-- One row of rule R68: a word `w` is the instruction when `w & mask = pattern`, and, for a row that is another name,
when also its two register fields are equal. -/
structure OpcodeRow where
  mnemonic : String
  mask : Word
  pattern : Word
  /-- The row of LSL, ROL or CLR. -/
  secondName : Bool
deriving DecidableEq, Repr

/-- The 24 rows of rule R68, in its order. -/
def opcodeRows : List OpcodeRow :=
  [⟨"AND", 0xFC00#16, 0x2000#16, false⟩, ⟨"ANDI", 0xF000#16, 0x7000#16, false⟩,
   ⟨"OR", 0xFC00#16, 0x2800#16, false⟩, ⟨"ORI", 0xF000#16, 0x6000#16, false⟩,
   ⟨"EOR", 0xFC00#16, 0x2400#16, false⟩, ⟨"LSL", 0xFC00#16, 0x0C00#16, true⟩,
   ⟨"LSR", 0xFE0F#16, 0x9406#16, false⟩, ⟨"ROL", 0xFC00#16, 0x1C00#16, true⟩,
   ⟨"ROR", 0xFE0F#16, 0x9407#16, false⟩, ⟨"ASR", 0xFE0F#16, 0x9405#16, false⟩,
   ⟨"SER", 0xFF0F#16, 0xEF0F#16, false⟩, ⟨"CLR", 0xFC00#16, 0x2400#16, true⟩,
   ⟨"INC", 0xFE0F#16, 0x9403#16, false⟩, ⟨"DEC", 0xFE0F#16, 0x940A#16, false⟩,
   ⟨"ADD", 0xFC00#16, 0x0C00#16, false⟩, ⟨"SUB", 0xFC00#16, 0x1800#16, false⟩,
   ⟨"SUBI", 0xF000#16, 0x5000#16, false⟩, ⟨"ADC", 0xFC00#16, 0x1C00#16, false⟩,
   ⟨"SBC", 0xFC00#16, 0x0800#16, false⟩, ⟨"SBCI", 0xF000#16, 0x4000#16, false⟩,
   ⟨"ADIW", 0xFF00#16, 0x9600#16, false⟩, ⟨"SBIW", 0xFF00#16, 0x9700#16, false⟩,
   ⟨"COM", 0xFE0F#16, 0x9400#16, false⟩, ⟨"NEG", 0xFE0F#16, 0x9401#16, false⟩]

/-- `w` is a word of the row (rule R68). -/
def OpcodeRow.covers (row : OpcodeRow) (w : Word) : Bool :=
  w &&& row.mask == row.pattern && (!row.secondName || fieldR w == fieldD w)

end Sys2Proof
end

