-- ==== Sys2Proof/Config.lean ====
section
/-! DEFINITION. What a device fixes: the open parameters that the spec leaves to the model's arguments (00_scope.md rule
R3 and 92_eei_decisions.md, "Open parameters, collected"). They are plain data, carried in the state and written by no
step, so that a statement over every state is a statement over every device (log 1). `END_PC` belongs to a run, not
to the device: it is an argument of the run functions of Safety.lean (log 13). `HAS_ADIW_SBIW` is true, as rule R3
fixes it: the two rows are part of the decoder without condition (log 22). -/

namespace Sys2Proof

/-- The open parameters of the device. -/
structure Device where
  /-- `PC_BITS`, the width of the program counter (decision D1). -/
  pcBits : Nat
  /-- `FLASH_WORDS`, the number of 16-bit words of program memory (decision D2). -/
  flashWords : Nat
  /-- `RESET_PC`, the word address at which a run from reset starts (decision D7). -/
  resetPc : Nat
deriving DecidableEq, Repr

/-- The constraints the spec puts on the parameters: `PC_BITS` ≥ 1, 1 ≤ `FLASH_WORDS` < 2^`PC_BITS` (strict,
90_conflicts.md C10), `RESET_PC` < `FLASH_WORDS`. -/
def Device.wf (v : Device) : Bool :=
  decide (1 ≤ v.pcBits) && decide (1 ≤ v.flashWords) && decide (v.flashWords < 2 ^ v.pcBits)
    && decide (v.resetPc < v.flashWords)

/-- The defaults the spec suggests for executable tests (D1, D2, D7). DESIGN CHOICE, unsafe for a claim that rests on
them: log 1. -/
def Device.suggested : Device := { pcBits := 16, flashWords := 8192, resetPc := 0 }

end Sys2Proof
end

