-- ==== Sys2Proof/Machine/State.lean ====
section
/-! DEFINITION. The state of the machine (10_state.md section 1): 32 general registers, the program counter, the eight
flags of SREG, program memory; and the device's open parameters as data no step writes (log 1). Nothing else is state
of this machine (10_state.md rules R35, R36). -/

namespace Sys2Proof.Machine

/-- The status register SREG: eight one-bit flags (10_state.md rule R25), in the order of the flag tables. -/
structure Sreg where
  /-- Global interrupt enable. -/
  i : Bool
  /-- Transfer bit. -/
  t : Bool
  /-- Half carry. -/
  h : Bool
  /-- Sign test. -/
  s : Bool
  /-- Two's complement overflow. -/
  v : Bool
  /-- Negative. -/
  n : Bool
  /-- Zero. -/
  z : Bool
  /-- Carry. -/
  c : Bool
deriving DecidableEq, Repr

/-- All eight flags 0. -/
def Sreg.clear : Sreg :=
  { i := false, t := false, h := false, s := false, v := false, n := false, z := false, c := false }

/-- Program memory (20_memory.md rule R40) as byte cells at byte addresses, the two bytes of word address `a` at `2a` and
`2a + 1` (rule R42; log 5). A byte that is not listed has no value (log 4). -/
abbrev Memory := List Host.Cell

/-- The canonical form: addresses strictly rising. (No entry can equal what an unlisted address reads as, since that is
no value.) -/
def Memory.wf : Memory → Bool
  | [] => true
  | [_] => true
  | a :: b :: m => decide (a.1 < b.1) && Memory.wf (b :: m)

/-- Every listed byte lies in program memory of `words` words. -/
def Memory.within (m : Memory) (words : Nat) : Bool := m.all fun cell => decide (cell.1 < 2 * words)

/-- The state of the machine. -/
structure State where
  /-- The general registers R0 to R31 (10_state.md rule R20). -/
  regs : Vector Byte 32
  /-- The program counter, a word address of `dev.pcBits` bits (10_state.md rules R23, R24; log 20). -/
  pc : Nat
  /-- The status register (10_state.md rule R25). -/
  sreg : Sreg
  /-- Program memory (20_memory.md rule R40). -/
  flash : Memory
  /-- The open parameters of the device (00_scope.md rule R3; log 1). -/
  dev : Device
deriving DecidableEq, Repr

/-- Why a step stops with a fault: the model's own stop, not an exception of the chip, which has none
(60_exceptions.md rule R200). -/
inductive Fault where
  /-- Raised by the fetch when the byte at this byte address of program memory was never supplied. Safe: the model goes on
  in fewer cases than the chip (log 4). -/
  | unprogrammed (address : Nat)
deriving DecidableEq, Repr

/-- Why a step is refused: the verdict `OutOfScope` of 60_exceptions.md rule R201 with its two causes, and the launch the
spec leaves outside the model. -/
inductive Refusal where
  /-- Raised by `exec` for an instruction that has no meaning yet. Safe. No arm raises it. -/
  | notModelled (mnemonic : String)
  /-- `OutOfScope(pc)`: raised by the fetch when `pc` is at or beyond `FLASH_WORDS` (20_memory.md rule R41, decision D2).
  Safe (log 11). -/
  | outOfScopeFetch (pc : Nat)
  /-- `OutOfScope(w)`: raised by the step when the word fetched at `pc` is none of the 24 (30_encoding.md rule R72, decision
  D5). Safe (log 10). -/
  | outOfScopeWord (w : Word) (pc : Nat)
  /-- Raised by `launch` of Safety.lean, never by a step: a run launched with `SREG.I = 1` is outside the model
  (60_exceptions.md rule R203, 93_implementation_defined.md U8). Safe (log 12). -/
  | launchWithInterruptsEnabled
deriving DecidableEq, Repr

/-- The outcome of a step or of an instruction. -/
abbrev Result := Host.Outcome State Fault Refusal

/-- The machine right after reset (10_state.md rule R37, 70_reset_and_hazards.md rule R220): `pc = RESET_PC`, all eight
flags 0, the general registers at any values `regs`, program memory as the host supplied it. -/
def State.resetWith (dev : Device) (regs : Vector Byte 32) (flash : Memory) : State :=
  { regs := regs, pc := dev.resetPc, sreg := Sreg.clear, flash := flash, dev := dev }

/-- The one reset state the host asks for: the suggested device (log 1), every general register 0 (DESIGN CHOICE, unsafe:
the spec says "some 8-bit value", log 2), program memory with nothing listed (log 16). -/
def State.reset : State := State.resetWith Device.suggested (Vector.replicate 32 0#8) []

end Sys2Proof.Machine
end

