-- ==== Sys2Proof/Machine/Ops.lean ====
section
/-! DEFINITION. The named operations over registers, program counter and program memory, and the fetch. There is no
operation that takes an exception or returns from one: the chip has none in this scope (60_exceptions.md rules R200,
R205, R206; log 21). The one verdict, `OutOfScope`, is raised by `State.fetch` and `State.fetchInstr`. -/

namespace Sys2Proof.Machine

/-! ### General registers and pairs -/

/-- `x[i]` (00_scope.md section 6.2). No register is hard-wired (10_state.md rule R20). -/
def State.x (s : State) (i : RegNum) : Byte := s.regs.get i

/-- `x[i] <- v`. -/
def State.setX (s : State) (i : RegNum) (v : Byte) : State := { s with regs := s.regs.set i v }

/-- The register that holds the high byte of the pair whose low register is `dl`: the next higher-numbered one
(10_state.md rule R22). -/
def pairHigh (dl : RegNum) : RegNum := dl + 1

/-- `pair(dl) = x[dl+1] :: x[dl]` (rule R22). -/
def State.pair (s : State) (dl : RegNum) : Word := s.x (pairHigh dl) ++ s.x dl

/-- `pair(dl) <- v`: both writes in the same instruction. -/
def State.setPair (s : State) (dl : RegNum) (v : Word) : State :=
  (s.setX (pairHigh dl) (v.extractLsb' 8 8)).setX dl (v.extractLsb' 0 8)

/-! ### Status register and program counter -/

/-- Writes the eight flags. -/
def State.setSreg (s : State) (f : Sreg) : State := { s with sreg := f }

/-- `pc <- pc + 1` modulo 2^`PC_BITS` (10_state.md rules R23, R24). -/
def State.advancePc (s : State) : State := { s with pc := (s.pc + 1) % 2 ^ s.dev.pcBits }

/-- The end of every instruction with one 8-bit result: `x[d] <- r`, the flags, `pc <- pc + 1`. All writes take effect
together (00_scope.md section 6.2). The `pc <- pc + 1` of 20_memory.md rule R41 is this one. -/
def State.writeback (s : State) (d : RegNum) (r : Byte) (f : Sreg) : State :=
  ((s.setX d r).setSreg f).advancePc

/-- The end of an instruction with a 16-bit result in a register pair. -/
def State.writebackPair (s : State) (dl : RegNum) (r : Word) (f : Sreg) : State :=
  ((s.setPair dl r).setSreg f).advancePc

/-! ### Program memory -/

/-- What an address that lists nothing reads as: no value (log 4). -/
def unlistedByte : Option Byte := none

/-- The byte at a byte address. -/
def Memory.read : Memory → Nat → Option Byte
  | [], _ => unlistedByte
  | (k, v) :: m, a => if a = k then some v else Memory.read m a

/-- Writes a byte, keeping the addresses strictly rising. No instruction writes program memory (20_memory.md rule R51);
only the host does, before a run (70_reset_and_hazards.md rule R224). -/
def Memory.write : Memory → Nat → Byte → Memory
  | [], a, b => [(a, b)]
  | (k, v) :: m, a, b =>
    if a < k then (a, b) :: (k, v) :: m
    else if a = k then (a, b) :: m
    else (k, v) :: Memory.write m a b

/-- The byte of program memory at a byte address. -/
def State.readByte (s : State) (a : Nat) : Option Byte := Memory.read s.flash a

/-- `ProgRead(a)`, the word at word address `a` (20_memory.md rules R40, R42); a byte never supplied has no value. -/
def State.progRead (s : State) (a : Nat) : Except Fault Word :=
  match s.readByte (2 * a) with
  | none => .error (.unprogrammed (2 * a))
  | some lo =>
    match s.readByte (2 * a + 1) with
    | none => .error (.unprogrammed (2 * a + 1))
    | some hi => .ok (wordOfBytes lo hi)

/-- The host's load of one word; there is no word at or beyond `FLASH_WORDS` to load. -/
def State.progWrite (s : State) (a : Nat) (w : Word) : State :=
  if a < s.dev.flashWords then
    { s with flash := Memory.write (Memory.write s.flash (2 * a) (lowByte w)) (2 * a + 1) (highByte w) }
  else s

/-- The host's load of a program at word address `a` (70_reset_and_hazards.md rule R224). -/
def State.progLoad (s : State) (a : Nat) : List Word → State
  | [] => s
  | w :: ws => (s.progWrite a w).progLoad (a + 1) ws

/-! ### Fetch (20_memory.md rule R41) -/

/-- The first two lines of rule R41: the fetch outside program memory is refused before a word is read. -/
def State.fetch (s : State) : Host.Outcome Word Fault Refusal :=
  if s.dev.flashWords ≤ s.pc then .refused (.outOfScopeFetch s.pc)
  else
    match s.progRead s.pc with
    | .ok w => .next w
    | .error f => .fault f

/-- The next two lines of rule R41: the word fetched is decoded, and refused when it is none of the 24. -/
def State.fetchInstr (s : State) : Host.Outcome Instr Fault Refusal :=
  match s.fetch with
  | .next w =>
    match decode w with
    | some i => .next i
    | none => .refused (.outOfScopeWord w s.pc)
  | .fault f => .fault f
  | .refused r => .refused r

end Sys2Proof.Machine
end

