-- ==== Sys2Proof/Machine/Operands.lean ====
section
/-! DEFINITION. The operand forms of the 24 instructions (10_state.md rule R21, 30_encoding.md rule R66) and the bits of
operands the flag functions look at. -/

namespace Sys2Proof.Machine

/-- The value of a register operand, `Rd` or `Rr`. -/
def regOperand (s : State) (r : RegNum) : Byte := s.x r

/-- The value of an 8-bit constant: as encoded, not extended, shifted or scaled (rule R66). -/
def const8 (k : Byte) : Byte := k

/-- The value of a register-pair operand `Rdl` (10_state.md rule R22). -/
def pairOperand (s : State) (dl : RegNum) : Word := s.pair dl

/-- The value of a 6-bit constant: `zext_16(K)` (rule R66). -/
def const6 (k : BitVec 6) : Word := k.setWidth 16

/-- `uint(a[3:0])`. -/
def lowNibble (a : Byte) : Nat := (a.extractLsb' 0 4).toNat

end Sys2Proof.Machine
end

