-- ==== Sys2Proof/Machine/Flags.lean ====
section
/-! DEFINITION. The flag functions of 10_state.md rules R28 to R34, adopted by decision D9 (log 6), and SREG as a byte
(rule R26). Which instruction writes which flag is rule R27; a function here leaves every flag it does not name. -/

namespace Sys2Proof.Machine

/-! ### Results with their flags -/

/-- An 8-bit result and the six flags computed with it. -/
structure Alu8 where
  r : Byte
  h : Bool
  s : Bool
  v : Bool
  n : Bool
  z : Bool
  c : Bool
deriving DecidableEq, Repr

/-- A 16-bit result and the five flags computed with it. -/
structure Alu16 where
  r : Word
  s : Bool
  v : Bool
  n : Bool
  z : Bool
  c : Bool
deriving DecidableEq, Repr

/-- `N` of an 8-bit result: bit 7 (rule R28). -/
def negative (r : Byte) : Bool := r.getLsbD 7

/-- `Z` of an 8-bit result (rule R28). -/
def isZero (r : Byte) : Bool := r == 0x00#8

/-- `S = N ^ V`, of the N and V the same instruction writes (rule R28). -/
def signTest (n v : Bool) : Bool := n ^^ v

/-- `add8(a, b, c)`, rule R29: the true sum, reduced modulo 256. -/
def add8 (a b : Byte) (c : Bool) : Alu8 :=
  let sum := a.toNat + b.toNat + c.toNat
  let r := BitVec.ofNat 8 sum
  let v := (a.getLsbD 7 == b.getLsbD 7) && (r.getLsbD 7 != a.getLsbD 7)
  { r := r
    c := decide (256 ≤ sum)
    h := decide (16 ≤ lowNibble a + lowNibble b + c.toNat)
    v := v
    n := negative r
    z := isZero r
    s := signTest (negative r) v }

/-- `sub8(a, b, c)`, rule R30, with the plain Z: the true difference as an integer, reduced modulo 256. -/
def sub8 (a b : Byte) (c : Bool) : Alu8 :=
  let diff : Int := (a.toNat : Int) - b.toNat - c.toNat
  let r := BitVec.ofInt 8 diff
  let v := (a.getLsbD 7 != b.getLsbD 7) && (r.getLsbD 7 != a.getLsbD 7)
  { r := r
    c := decide (diff < 0)
    h := decide ((lowNibble a : Int) - lowNibble b - c.toNat < 0)
    v := v
    n := negative r
    z := isZero r
    s := signTest (negative r) v }

/-- `sub8(a, b, c)` with the sticky Z of SBC and SBCI, `z` being the flag before (rule R30). -/
def sub8Sticky (a b : Byte) (c z : Bool) : Alu8 :=
  let u := sub8 a b c
  { u with z := u.z && z }

/-- ADIW's result and flags, rule R34. -/
def adiw16 (p : Word) (k : BitVec 6) : Alu16 :=
  let sum := p.toNat + (const6 k).toNat
  let r := BitVec.ofNat 16 sum
  let v := !p.getLsbD 15 && r.getLsbD 15
  { r := r
    c := decide (65536 ≤ sum)
    v := v
    n := r.getLsbD 15
    z := r == 0x0000#16
    s := signTest (r.getLsbD 15) v }

/-- SBIW's result and flags, rule R34. -/
def sbiw16 (p : Word) (k : BitVec 6) : Alu16 :=
  let diff : Int := (p.toNat : Int) - (const6 k).toNat
  let r := BitVec.ofInt 16 diff
  let v := p.getLsbD 15 && !r.getLsbD 15
  { r := r
    c := decide (diff < 0)
    v := v
    n := r.getLsbD 15
    z := r == 0x0000#16
    s := signTest (r.getLsbD 15) v }

/-! ### Writing the flags -/

/-- Writes H, S, V, N, Z and C of an addition or subtraction. -/
def Sreg.putAlu8 (f : Sreg) (u : Alu8) : Sreg :=
  { f with h := u.h, s := u.s, v := u.v, n := u.n, z := u.z, c := u.c }

/-- Writes S, V, N, Z and C of a word operation; H is not written (rule R34). -/
def Sreg.putAlu16 (f : Sreg) (u : Alu16) : Sreg :=
  { f with s := u.s, v := u.v, n := u.n, z := u.z, c := u.c }

/-- `logic_flags(R)`, rule R32: V cleared, N, Z, S from the result. -/
def Sreg.putLogic (f : Sreg) (r : Byte) : Sreg :=
  { f with v := false, n := negative r, z := isZero r, s := signTest (negative r) false }

/-- COM's flags: `logic_flags(R)` and C set (rules R32, R161). -/
def Sreg.putCom (f : Sreg) (r : Byte) : Sreg := { f.putLogic r with c := true }

/-- `shr_flags(R, c0)`, rule R31, for LSR, ROR and ASR. -/
def Sreg.putShr (f : Sreg) (r : Byte) (c0 : Bool) : Sreg :=
  let n := negative r
  let v := n ^^ c0
  { f with c := c0, n := n, z := isZero r, v := v, s := signTest n v }

/-- The flags of LSL and ROL (41_shift_rotate.md rules R111, R113), `a` the operand before and `r` the result. -/
def Sreg.putShl (f : Sreg) (a r : Byte) : Sreg :=
  { f with
    c := a.getLsbD 7
    h := a.getLsbD 3
    n := negative r
    v := r.getLsbD 7 ^^ a.getLsbD 7
    s := a.getLsbD 7
    z := isZero r }

/-- The flags of INC and DEC, rule R33: C and H are not written. -/
def Sreg.putIncDec (f : Sreg) (r : Byte) (overflow : Bool) : Sreg :=
  { f with v := overflow, n := negative r, z := isZero r, s := signTest (negative r) overflow }

/-- The constant flags of CLR (42_set_clear.md rule R122). -/
def Sreg.putClr (f : Sreg) : Sreg := { f with s := false, v := false, n := false, z := true }

/-- NEG's flags (46_complement.md rule R162), `a` the operand before and `r` the result. -/
def Sreg.putNeg (f : Sreg) (a r : Byte) : Sreg :=
  let v := r == 0x80#8
  { f with
    c := r != 0x00#8
    h := r.getLsbD 3 || a.getLsbD 3
    v := v
    n := negative r
    z := isZero r
    s := signTest (negative r) v }

/-! ### SREG as a byte -/

/-- SREG as a byte: bit 7 is I, then T, H, S, V, N, Z, and bit 0 is C (rule R26; log 17). No instruction uses it. -/
def Sreg.toByte (f : Sreg) : Byte := BitVec.ofBoolListBE [f.i, f.t, f.h, f.s, f.v, f.n, f.z, f.c]

/-- The flags of an SREG byte (rule R26). -/
def Sreg.ofByte (b : Byte) : Sreg :=
  { i := b.getLsbD 7, t := b.getLsbD 6, h := b.getLsbD 5, s := b.getLsbD 4
    v := b.getLsbD 3, n := b.getLsbD 2, z := b.getLsbD 1, c := b.getLsbD 0 }

end Sys2Proof.Machine
end

