-- ==== Sys2Proof/Machine/AddSub.lean ====
section
/-! DEFINITION. ADD, SUB, SUBI, ADC, SBC, SBCI (44_add_sub.md), over `add8` and `sub8` of 10_state.md rules R29, R30. -/

namespace Sys2Proof.Machine

/-- The end of an addition or subtraction (rule R140): the result, the six flags, the counter. -/
def addSub (d : RegNum) (u : Alu8) (s : State) : Result := .next (s.writeback d u.r (s.sreg.putAlu8 u))

/-- Rule R141. -/
def execAdd (d r : RegNum) (s : State) : Result := addSub d (add8 (regOperand s d) (regOperand s r) false) s

/-- Rule R142. -/
def execSub (d r : RegNum) (s : State) : Result := addSub d (sub8 (regOperand s d) (regOperand s r) false) s

/-- Rule R143. -/
def execSubi (d : RegNum) (k : Byte) (s : State) : Result := addSub d (sub8 (regOperand s d) (const8 k) false) s

/-- Rule R144: the carry flag before the instruction is added. -/
def execAdc (d r : RegNum) (s : State) : Result := addSub d (add8 (regOperand s d) (regOperand s r) s.sreg.c) s

/-- Rule R145: the carry flag before is subtracted, and Z can be kept or cleared, never set. -/
def execSbc (d r : RegNum) (s : State) : Result :=
  addSub d (sub8Sticky (regOperand s d) (regOperand s r) s.sreg.c s.sreg.z) s

/-- Rule R146: as SBC, with a constant. -/
def execSbci (d : RegNum) (k : Byte) (s : State) : Result :=
  addSub d (sub8Sticky (regOperand s d) (const8 k) s.sreg.c s.sreg.z) s

end Sys2Proof.Machine
end

