-- ==== Sys2Proof/Machine/Complement.lean ====
section
/-! DEFINITION. COM and NEG (46_complement.md): the ones' and the two's complement of a register, rule R160. -/

namespace Sys2Proof.Machine

/-- Rule R161. -/
def execCom (d : RegNum) (s : State) : Result :=
  let r := ~~~ regOperand s d
  .next (s.writeback d r (s.sreg.putCom r))

/-- Rule R162 (the two's complement: 90_conflicts.md C4): `0 − a` as an integer, reduced modulo 256. -/
def execNeg (d : RegNum) (s : State) : Result :=
  let a := regOperand s d
  let r := BitVec.ofInt 8 (0 - (a.toNat : Int))
  .next (s.writeback d r (s.sreg.putNeg a r))

end Sys2Proof.Machine
end

