-- ==== Sys2Proof/Machine/IncDec.lean ====
section
/-! DEFINITION. INC and DEC (43_inc_dec.md): one more and one less modulo 256, C and H kept, rule R130. -/

namespace Sys2Proof.Machine

/-- Rule R131. V is set exactly when the result is 0x80 (10_state.md rule R33). -/
def execInc (d : RegNum) (s : State) : Result :=
  let r := regOperand s d + 1#8
  .next (s.writeback d r (s.sreg.putIncDec r (r == 0x80#8)))

/-- Rule R132. V is set exactly when the result is 0x7F (10_state.md rule R33). -/
def execDec (d : RegNum) (s : State) : Result :=
  let r := regOperand s d - 1#8
  .next (s.writeback d r (s.sreg.putIncDec r (r == 0x7F#8)))

end Sys2Proof.Machine
end

