-- ==== Sys2Proof/Machine/Logical.lean ====
section
/-! DEFINITION. AND, ANDI, OR, ORI, EOR (40_logical.md). C is unchanged by all five, EOR too (90_conflicts.md C1; log 9). -/

namespace Sys2Proof.Machine

/-- The end of a logical instruction (rule R100): the result, `logic_flags`, the counter. -/
def logical (d : RegNum) (r : Byte) (s : State) : Result := .next (s.writeback d r (s.sreg.putLogic r))

/-- Rule R101. -/
def execAnd (d r : RegNum) (s : State) : Result := logical d (regOperand s d &&& regOperand s r) s

/-- Rule R102. -/
def execAndi (d : RegNum) (k : Byte) (s : State) : Result := logical d (regOperand s d &&& const8 k) s

/-- Rule R103. -/
def execOr (d r : RegNum) (s : State) : Result := logical d (regOperand s d ||| regOperand s r) s

/-- Rule R104. -/
def execOri (d : RegNum) (k : Byte) (s : State) : Result := logical d (regOperand s d ||| const8 k) s

/-- Rule R105. -/
def execEor (d r : RegNum) (s : State) : Result := logical d (regOperand s d ^^^ regOperand s r) s

end Sys2Proof.Machine
end

