-- ==== Sys2Proof/Machine/SetClear.lean ====
section
/-! DEFINITION. SER and CLR (42_set_clear.md): a constant loaded into one register, rule R120. -/

namespace Sys2Proof.Machine

/-- Rule R121. No flag is written. -/
def execSer (d : RegNum) (s : State) : Result := .next (s.writeback d 0xFF#8 s.sreg)

/-- Rule R122. -/
def execClr (d : RegNum) (s : State) : Result := .next (s.writeback d 0x00#8 s.sreg.putClr)

end Sys2Proof.Machine
end

