-- ==== Sys2Proof/Machine/Shift.lean ====
section
/-! DEFINITION. LSL, LSR, ROL, ROR, ASR (41_shift_rotate.md): one place left or right, the bit that leaves going to C. -/

namespace Sys2Proof.Machine

/-- A shift left (rules R111, R113): `inBit` enters at bit 0, bit 7 leaves to C. -/
def shiftLeft (d : RegNum) (inBit : Bool) (s : State) : Result :=
  let a := regOperand s d
  let r : Byte := a.extractLsb' 0 7 ++ BitVec.ofBool inBit
  .next (s.writeback d r (s.sreg.putShl a r))

/-- A shift right (rules R112, R114, R115): `inBit` enters at bit 7, bit 0 leaves to C. -/
def shiftRight (d : RegNum) (inBit : Bool) (s : State) : Result :=
  let a := regOperand s d
  let r : Byte := BitVec.ofBool inBit ++ a.extractLsb' 1 7
  .next (s.writeback d r (s.sreg.putShr r (a.getLsbD 0)))

/-- Rule R111. -/
def execLsl (d : RegNum) (s : State) : Result := shiftLeft d false s

/-- Rule R112. -/
def execLsr (d : RegNum) (s : State) : Result := shiftRight d false s

/-- Rule R113. -/
def execRol (d : RegNum) (s : State) : Result := shiftLeft d s.sreg.c s

/-- Rule R114. -/
def execRor (d : RegNum) (s : State) : Result := shiftRight d s.sreg.c s

/-- Rule R115. -/
def execAsr (d : RegNum) (s : State) : Result := shiftRight d ((regOperand s d).getLsbD 7) s

end Sys2Proof.Machine
end

