-- ==== Sys2Proof/Machine/WordArith.lean ====
section
/-! DEFINITION. ADIW and SBIW (45_word_arith.md): a register pair and a 6-bit constant, modulo 65 536, rule R150. -/

namespace Sys2Proof.Machine

/-- The end of a word operation: both registers, five flags, the counter, as one step. -/
def wordArith (dl : RegNum) (u : Alu16) (s : State) : Result := .next (s.writebackPair dl u.r (s.sreg.putAlu16 u))

/-- Rule R151. -/
def execAdiw (dl : RegNum) (k : BitVec 6) (s : State) : Result := wordArith dl (adiw16 (pairOperand s dl) k) s

/-- Rule R152. -/
def execSbiw (dl : RegNum) (k : BitVec 6) (s : State) : Result := wordArith dl (sbiw16 (pairOperand s dl) k) s

end Sys2Proof.Machine
end

