-- ==== Sys2Proof/Machine/Step.lean ====
section
/-! DEFINITION. One step of the machine, 20_memory.md rule R41: fetch, decode, execute. The counter is advanced by the
instruction (Ops.lean, `State.writeback`). When a run ends at `END_PC` is no matter of the step (log 13). -/

namespace Sys2Proof.Machine

/-- One step. A refusal or a fault changes no state (60_exceptions.md rule R201). -/
def step (s : State) : Host.Outcome State Fault Refusal :=
  match s.fetchInstr with
  | .next i => exec i s
  | .fault f => .fault f
  | .refused r => .refused r

/-- `s` with an instruction stored where the next step fetches: the host's load of one word at `pc` (log 16). -/
def State.withFetchWord (s : State) (nbits w : Nat) : State := s.progWrite s.pc (BitVec.ofNat 16 (w % 2 ^ nbits))

end Sys2Proof.Machine
end

