-- ==== Sys2Proof/Machine/Timing.lean ====
section
/-! DEFINITION. The cycle counts of 70_reset_and_hazards.md rule R231: an annotation, on which no step depends and of which
the state holds nothing (decision D14; log 18). -/

namespace Sys2Proof

/-- The clock cycles an instruction takes, whatever its operands. -/
def Instr.cycles : Instr → Nat
  | .and _ _ => 1
  | .andi _ _ => 1
  | .or _ _ => 1
  | .ori _ _ => 1
  | .eor _ _ => 1
  | .lsl _ => 1
  | .lsr _ => 1
  | .rol _ => 1
  | .ror _ => 1
  | .asr _ => 1
  | .ser _ => 1
  | .clr _ => 1
  | .inc _ => 1
  | .dec _ => 1
  | .add _ _ => 1
  | .sub _ _ => 1
  | .subi _ _ => 1
  | .adc _ _ => 1
  | .sbc _ _ => 1
  | .sbci _ _ => 1
  | .adiw _ _ => 2
  | .sbiw _ _ => 2
  | .com _ => 1
  | .neg _ => 1

/-- The cycles of a straight line of instructions. -/
def cyclesOf (is : List Instr) : Nat := (is.map Instr.cycles).sum

end Sys2Proof
end

