-- ==== Sys2Proof/Safety.lean ====
section
/-! DEFINITION. The terms of claims: the invariant of the machine, the launch premises of 70_reset_and_hazards.md rule R221,
the end of a run (rule R223), what counts as a safe run, what each instruction writes and reads (10_state.md rule R27),
and what an instruction keeps. -/

namespace Sys2Proof.Machine

/-! ### The invariant -/

/-- The device's parameters meet their constraints (00_scope.md rule R3), the counter is at most `FLASH_WORDS` (10_state.md
rule R24), program memory is in its canonical form and lists nothing beyond its end. -/
def State.inv (s : State) : Bool :=
  s.dev.wf && decide (s.pc ≤ s.dev.flashWords) && Memory.wf s.flash && Memory.within s.flash s.dev.flashWords

/-! ### Launch premises (rule R221) and the end of a run (rule R223) -/

/-- `NoInterrupts`: `SREG.I = 0`. That the environment delivers none is the machine's having no such input (log 12). -/
def NoInterrupts (s : State) : Prop := s.sreg.i = false

/-- `StartAt(a)`: `pc = a` at launch. -/
def StartAt (a : Nat) (s : State) : Prop := s.pc = a

/-- `ProgramAt(a, ws)`: the words `ws` stand at word addresses `a`, `a + 1`, … and all lie in program memory. -/
def ProgramAt (a : Nat) (ws : List Word) (s : State) : Prop :=
  a + ws.length ≤ s.dev.flashWords ∧ ∀ k w, ws[k]? = some w → s.progRead (a + k) = .ok w

/-- `FlagsClear`: H = S = V = N = Z = C = T = 0. -/
def FlagsClear (s : State) : Prop :=
  s.sreg.h = false ∧ s.sreg.s = false ∧ s.sreg.v = false ∧ s.sreg.n = false ∧ s.sreg.z = false
    ∧ s.sreg.c = false ∧ s.sreg.t = false

/-- `RESET_PC ≤ END_PC ≤ FLASH_WORDS`, the constraint on the model argument `END_PC` (rule R223). It is a premise for claims:
DESIGN CHOICE, no definition of a run tests it (log 23). -/
def endPcOk (dev : Device) (endPc : Nat) : Bool := decide (dev.resetPc ≤ endPc) && decide (endPc ≤ dev.flashWords)

/-- The state is final: `pc = END_PC` (rule R223). It says nothing of what the chip does after. -/
def State.isFinal (endPc : Nat) (s : State) : Bool := s.pc == endPc

/-- `n` steps, stopping at the first fault or refusal: the verdict is kept for the rest of the run (60_exceptions.md rule
R201). It is the host's `Host.Core.run` of this machine. -/
def runSteps : Nat → State → Result
  | 0, s => .next s
  | k + 1, s =>
    match step s with
    | .next t => runSteps k t
    | .fault f => .fault f
    | .refused r => .refused r

/-- At most `fuel` steps, none from a final state: the word at `END_PC` is never fetched (rule R223). From a counter already
past `END_PC`, of which the rule says nothing, it steps on until the fuel is spent or a step stops (log 23). -/
def runTo (endPc : Nat) : Nat → State → Result
  | 0, s => .next s
  | k + 1, s =>
    if s.isFinal endPc then .next s
    else
      match step s with
      | .next t => runTo endPc k t
      | .fault f => .fault f
      | .refused r => .refused r

/-- A run launched in `s`: outside the model when `SREG.I = 1` (60_exceptions.md rule R203, 93_implementation_defined.md U8;
log 12), else run with fuel `END_PC − pc`, which rule R223 says is exact. DESIGN CHOICE, unsafe (log 23): rule R223 speaks of
`pc ≤ END_PC` only; a launch with `pc` past `END_PC` takes no step and answers `s` itself, which is not final, and `END_PC`
is not held against `endPcOk`. -/
def launch (endPc : Nat) (s : State) : Result :=
  if s.sreg.i then .refused .launchWithInterruptsEnabled else runTo endPc (endPc - s.pc) s

/-- A safe run: it is not refused, does not fault, and ends in a final state. -/
def SafeRun (endPc : Nat) (s : State) : Prop := ∃ t, launch endPc s = .next t ∧ t.isFinal endPc = true

/-! ### Which instruction writes and reads which flag (10_state.md rule R27) -/

/-- The names of the eight flags. -/
inductive FlagName where
  | i | t | h | s | v | n | z | c
deriving DecidableEq, Repr

/-- The flag of that name. -/
def Sreg.flag (f : Sreg) : FlagName → Bool
  | .i => f.i
  | .t => f.t
  | .h => f.h
  | .s => f.s
  | .v => f.v
  | .n => f.n
  | .z => f.z
  | .c => f.c

/-- A cell of a flag table (00_scope.md rule R6): `_`, `+`, `0` or `1`. -/
inductive Mark where
  | kept
  | computed
  | zero
  | one
deriving DecidableEq, Repr

/-- A row of a flag table, in the columns I T H S V N Z C. -/
structure MarkRow where
  i : Mark
  t : Mark
  h : Mark
  s : Mark
  v : Mark
  n : Mark
  z : Mark
  c : Mark
deriving DecidableEq, Repr

/-- The cell of a column. -/
def MarkRow.cell (m : MarkRow) : FlagName → Mark
  | .i => m.i
  | .t => m.t
  | .h => m.h
  | .s => m.s
  | .v => m.v
  | .n => m.n
  | .z => m.z
  | .c => m.c

/-- `_ _ _ + 0 + + _` -/
def logicRow : MarkRow := ⟨.kept, .kept, .kept, .computed, .zero, .computed, .computed, .kept⟩
/-- `_ _ + + + + + +` -/
def arithRow : MarkRow := ⟨.kept, .kept, .computed, .computed, .computed, .computed, .computed, .computed⟩
/-- `_ _ _ + + 0 + +` -/
def lsrRow : MarkRow := ⟨.kept, .kept, .kept, .computed, .computed, .zero, .computed, .computed⟩
/-- `_ _ _ + + + + +` -/
def wordRow : MarkRow := ⟨.kept, .kept, .kept, .computed, .computed, .computed, .computed, .computed⟩
/-- `_ _ _ _ _ _ _ _` -/
def serRow : MarkRow := ⟨.kept, .kept, .kept, .kept, .kept, .kept, .kept, .kept⟩
/-- `_ _ _ 0 0 0 1 _` -/
def clrRow : MarkRow := ⟨.kept, .kept, .kept, .zero, .zero, .zero, .one, .kept⟩
/-- `_ _ _ + + + + _` -/
def incDecRow : MarkRow := ⟨.kept, .kept, .kept, .computed, .computed, .computed, .computed, .kept⟩
/-- `_ _ _ + 0 + + 1` -/
def comRow : MarkRow := ⟨.kept, .kept, .kept, .computed, .zero, .computed, .computed, .one⟩

/-- The matrix of rule R27. -/
def flagRow : Instr → MarkRow
  | .and _ _ => logicRow
  | .andi _ _ => logicRow
  | .or _ _ => logicRow
  | .ori _ _ => logicRow
  | .eor _ _ => logicRow
  | .lsl _ => arithRow
  | .lsr _ => lsrRow
  | .rol _ => arithRow
  | .ror _ => wordRow
  | .asr _ => wordRow
  | .ser _ => serRow
  | .clr _ => clrRow
  | .inc _ => incDecRow
  | .dec _ => incDecRow
  | .add _ _ => arithRow
  | .sub _ _ => arithRow
  | .subi _ _ => arithRow
  | .adc _ _ => arithRow
  | .sbc _ _ => arithRow
  | .sbci _ _ => arithRow
  | .adiw _ _ => wordRow
  | .sbiw _ _ => wordRow
  | .com _ => comRow
  | .neg _ => arithRow

/-- The instruction reads C (rule R27): ADC, SBC, SBCI, ROL, ROR. -/
def readsC : Instr → Bool
  | .adc _ _ => true
  | .sbc _ _ => true
  | .sbci _ _ => true
  | .rol _ => true
  | .ror _ => true
  | .and _ _ => false
  | .andi _ _ => false
  | .or _ _ => false
  | .ori _ _ => false
  | .eor _ _ => false
  | .lsl _ => false
  | .lsr _ => false
  | .asr _ => false
  | .ser _ => false
  | .clr _ => false
  | .inc _ => false
  | .dec _ => false
  | .add _ _ => false
  | .sub _ _ => false
  | .subi _ _ => false
  | .adiw _ _ => false
  | .sbiw _ _ => false
  | .com _ => false
  | .neg _ => false

/-- The instruction reads Z (rule R27): SBC and SBCI. -/
def readsZ : Instr → Bool
  | .sbc _ _ => true
  | .sbci _ _ => true
  | .adc _ _ => false
  | .rol _ => false
  | .ror _ => false
  | .and _ _ => false
  | .andi _ _ => false
  | .or _ _ => false
  | .ori _ _ => false
  | .eor _ _ => false
  | .lsl _ => false
  | .lsr _ => false
  | .asr _ => false
  | .ser _ => false
  | .clr _ => false
  | .inc _ => false
  | .dec _ => false
  | .add _ _ => false
  | .sub _ _ => false
  | .subi _ _ => false
  | .adiw _ _ => false
  | .sbiw _ _ => false
  | .com _ => false
  | .neg _ => false

/-- The registers the instruction writes: its destination, or the two registers of its pair. -/
def destinations : Instr → List RegNum
  | .and d _ => [d]
  | .andi d _ => [d]
  | .or d _ => [d]
  | .ori d _ => [d]
  | .eor d _ => [d]
  | .lsl d => [d]
  | .lsr d => [d]
  | .rol d => [d]
  | .ror d => [d]
  | .asr d => [d]
  | .ser d => [d]
  | .clr d => [d]
  | .inc d => [d]
  | .dec d => [d]
  | .add d _ => [d]
  | .sub d _ => [d]
  | .subi d _ => [d]
  | .adc d _ => [d]
  | .sbc d _ => [d]
  | .sbci d _ => [d]
  | .adiw dl _ => [dl, pairHigh dl]
  | .sbiw dl _ => [dl, pairHigh dl]
  | .com d => [d]
  | .neg d => [d]

/-! ### What an instruction keeps -/

/-- From `s` to `t` nothing changed but the registers of `ds`, the flags H, S, V, N, Z, C, and the counter, which went to
the next word modulo 2^`PC_BITS`: every other register, every byte of program memory, I, T and the device are kept. -/
def KeepsRest (ds : List RegNum) (s t : State) : Prop :=
  (∀ j, j ∉ ds → t.x j = s.x j) ∧ (∀ a, t.readByte a = s.readByte a) ∧ t.dev = s.dev
    ∧ t.sreg.i = s.sreg.i ∧ t.sreg.t = s.sreg.t ∧ t.pc = (s.pc + 1) % 2 ^ s.dev.pcBits

end Sys2Proof.Machine
end

