-- ==== Sys2Proof/Certificates/Slice0/Obligations.lean ====
section
/-! DEFINITION. The statements for the provers. Each instruction's statement gives its words (the encoding row of its rule,
read by 00_scope.md rule R5), its cycles, that it completes from every state, its result, every flag and its frame. The flag
formulas are those the spec adopts by decision D9 from general knowledge (log 6). -/

open Sys2Proof Sys2Proof.Machine

/-! ### The encoding rows, written as concatenations of their fields -/

/-- The row `oooo oord dddd rrrr` of 30_encoding.md rule R61. -/
def Claims.rowRR (o : BitVec 6) (d r : BitVec 5) : Word := o ++ r.extractLsb' 4 1 ++ d ++ r.extractLsb' 0 4

/-- The row `oooo KKKK dddd KKKK` of rule R62. -/
def Claims.rowRI (o d : BitVec 4) (k : Byte) : Word := o ++ k.extractLsb' 4 4 ++ d ++ k.extractLsb' 0 4

/-- The row `1001 010d dddd ffff` of rule R64. -/
def Claims.rowR1 (f : BitVec 4) (d : BitVec 5) : Word := 0b1001010#7 ++ d ++ f

/-- The row `1001 011s KKdd KKKK` of rule R65. -/
def Claims.rowWI (sel : BitVec 1) (dd : BitVec 2) (k : BitVec 6) : Word :=
  0b1001011#7 ++ sel ++ k.extractLsb' 4 2 ++ dd ++ k.extractLsb' 0 4

/-- The word is the instruction's own: it encodes to it and is decoded from it. -/
def Claims.HasWord (i : Instr) (w : Word) : Prop := encode i = some w ∧ decode w = some i

/-- Every word of the format-RR row with opcode `o` is the instruction `mk Rd Rr`, every d and r from 0 to 31. -/
def Claims.EncodedRR (o : BitVec 6) (mk : RegNum → RegNum → Instr) : Prop :=
  ∀ d r : BitVec 5, Claims.HasWord (mk d.toFin r.toFin) (Claims.rowRR o d r)

/-- Every word of the format-RI row is the instruction with `d = 16 + dddd` and the constant K; no other d is well-formed. -/
def Claims.EncodedRI (o : BitVec 4) (mk : RegNum → Byte → Instr) : Prop :=
  (∀ (dddd : BitVec 4) (k : Byte) (d : RegNum), d.val = 16 + dddd.toNat → Claims.HasWord (mk d k) (Claims.rowRI o dddd k))
    ∧ ∀ d k, d.val < 16 → encode (mk d k) = none

/-- Every word of the format-R1 row is the instruction `mk Rd`, every d from 0 to 31. -/
def Claims.EncodedR1 (f : BitVec 4) (mk : RegNum → Instr) : Prop :=
  ∀ d : BitVec 5, Claims.HasWord (mk d.toFin) (Claims.rowR1 f d)

/-- Every word of the format-WI row is the instruction with `dl = 24 + 2 * dd` and the constant K; no other dl is
well-formed. -/
def Claims.EncodedWI (sel : BitVec 1) (mk : RegNum → BitVec 6 → Instr) : Prop :=
  (∀ (dd : BitVec 2) (k : BitVec 6) (dl : RegNum), dl.val = 24 + 2 * dd.toNat →
      Claims.HasWord (mk dl k) (Claims.rowWI sel dd k))
    ∧ ∀ (dl : RegNum) k, dl ≠ 24 → dl ≠ 26 → dl ≠ 28 → dl ≠ 30 → encode (mk dl k) = none

/-! ### The shapes of an outcome -/

/-- `logic_flags(R)` of 10_state.md rule R32 and the rest of rule R100: H and C unchanged. -/
def Claims.LogicalOutcome (d : RegNum) (r : Byte) (s : State) (out : Result) : Prop :=
  ∃ t, out = .next t ∧ t.x d = r ∧ t.sreg.v = false ∧ t.sreg.n = r.getLsbD 7 ∧ t.sreg.z = decide (r = 0x00#8)
    ∧ t.sreg.s = r.getLsbD 7 ∧ t.sreg.h = s.sreg.h ∧ t.sreg.c = s.sreg.c ∧ KeepsRest [d] s t

/-- The flags of a shift right (10_state.md rule R31): `r` the result, `c0` bit 0 of the operand before. -/
def Claims.ShiftRightFlags (r : Byte) (c0 : Bool) (s t : State) : Prop :=
  t.sreg.c = c0 ∧ t.sreg.n = r.getLsbD 7 ∧ t.sreg.v = (r.getLsbD 7 ^^ c0) ∧ t.sreg.s = c0
    ∧ t.sreg.z = decide (r = 0x00#8) ∧ t.sreg.h = s.sreg.h

/-- The flags of a shift left (rules R111, R113): `a` the operand before, `r` the result. -/
def Claims.ShiftLeftFlags (a r : Byte) (t : State) : Prop :=
  t.sreg.c = a.getLsbD 7 ∧ t.sreg.h = a.getLsbD 3 ∧ t.sreg.n = a.getLsbD 6 ∧ t.sreg.v = (r.getLsbD 7 ^^ a.getLsbD 7)
    ∧ t.sreg.s = a.getLsbD 7 ∧ t.sreg.z = decide (r = 0x00#8)

/-- The outcome of adding `a`, `b` and the carry `c` into Rd (rules R141, R144). -/
def Claims.AddOutcome (d : RegNum) (a b : Byte) (c : Bool) (s : State) (out : Result) : Prop :=
  ∃ t r, out = .next t ∧ t.x d = r ∧ r.toNat = (a.toNat + b.toNat + c.toNat) % 256
    ∧ t.sreg.c = decide (256 ≤ a.toNat + b.toNat + c.toNat)
    ∧ t.sreg.h = decide (16 ≤ a.toNat % 16 + b.toNat % 16 + c.toNat)
    ∧ t.sreg.v = (a.getLsbD 7 == b.getLsbD 7 && r.getLsbD 7 != a.getLsbD 7)
    ∧ t.sreg.n = r.getLsbD 7 ∧ t.sreg.z = decide (r = 0x00#8) ∧ t.sreg.s = (t.sreg.n ^^ t.sreg.v) ∧ KeepsRest [d] s t

/-- The outcome of subtracting `b` and the borrow `c` from `a` into Rd (rules R142, R143, R145, R146); Z is set only if the
result is zero and `zBefore` holds (`true` for the plain Z). -/
def Claims.SubOutcome (d : RegNum) (a b : Byte) (c zBefore : Bool) (s : State) (out : Result) : Prop :=
  ∃ t r, out = .next t ∧ t.x d = r ∧ (r.toNat : Int) = ((a.toNat : Int) - b.toNat - c.toNat) % 256
    ∧ t.sreg.c = decide (a.toNat < b.toNat + c.toNat)
    ∧ t.sreg.h = decide (a.toNat % 16 < b.toNat % 16 + c.toNat)
    ∧ t.sreg.v = (a.getLsbD 7 != b.getLsbD 7 && r.getLsbD 7 != a.getLsbD 7)
    ∧ t.sreg.n = r.getLsbD 7 ∧ t.sreg.z = (decide (r = 0x00#8) && zBefore) ∧ t.sreg.s = (t.sreg.n ^^ t.sreg.v)
    ∧ KeepsRest [d] s t

/-! ### Reset -/

/-- 10_state.md rule R37 and 70_reset_and_hazards.md rule R220: `pc = RESET_PC`, all eight flags 0, each general register
some value. That `State.reset` takes the suggested device, registers of 0 and no program memory listed, every byte of which
then reads as no value, is the model's choice (log 1, log 2, log 16, log 4). -/
def Obligations.ResetConstructsTheInitialState : Prop :=
  (∀ (dev : Device) (regs : Vector Byte 32) (flash : Memory),
      (State.resetWith dev regs flash).pc = dev.resetPc
        ∧ (∀ f, (State.resetWith dev regs flash).sreg.flag f = false)
        ∧ NoInterrupts (State.resetWith dev regs flash) ∧ FlagsClear (State.resetWith dev regs flash)
        ∧ (∀ j, (State.resetWith dev regs flash).x j = regs.get j)
        ∧ (∀ a, (State.resetWith dev regs flash).readByte a = Memory.read flash a))
    ∧ State.reset.pc = 0 ∧ State.reset.sreg.toByte = 0x00#8 ∧ State.reset.dev = ⟨16, 8192, 0⟩
    ∧ (∀ j, State.reset.x j = 0x00#8) ∧ ∀ a, State.reset.readByte a = none

/-- The invariant holds after reset, on every device whose parameters meet their constraints. -/
def Obligations.InvariantHoldsAfterReset : Prop :=
  State.reset.inv = true
    ∧ ∀ (dev : Device) (regs : Vector Byte 32) (flash : Memory), dev.wf = true → Memory.wf flash = true →
        Memory.within flash dev.flashWords = true → (State.resetWith dev regs flash).inv = true

/-! ### Registers, SREG and program memory -/

/-- 10_state.md rules R20, R22: no register is hard-wired; a pair is its two registers and no separate state, so that a
write to either register shows in the pair and a write to the pair shows in both. That the partner is the next
higher-numbered register and holds the high byte is what the spec supplies from general knowledge (log 8). -/
def Obligations.RegistersAndPairsReadWhatWasWritten : Prop :=
  (∀ (s : State) (i j : RegNum) (v : Byte), (s.setX i v).x j = if j = i then v else s.x j)
    ∧ (∀ (s : State) (dl : RegNum) (v : Word), isPairLow dl = true → (s.setPair dl v).pair dl = v)
    ∧ ∀ (s : State) (dl dh : RegNum), isPairLow dl = true → dh.val = dl.val + 1 →
        s.pair dl = s.x dh ++ s.x dl
          ∧ (∀ v : Byte, (s.setX dl v).pair dl = s.x dh ++ v ∧ (s.setX dh v).pair dl = v ++ s.x dl
              ∧ ((s.setX dl v).pair dl).extractLsb' 0 8 = v
              ∧ ((s.setX dl v).pair dl).extractLsb' 8 8 = (s.pair dl).extractLsb' 8 8
              ∧ ((s.setX dh v).pair dl).extractLsb' 8 8 = v
              ∧ ((s.setX dh v).pair dl).extractLsb' 0 8 = (s.pair dl).extractLsb' 0 8)
          ∧ ∀ (w : Word) (j : RegNum), (s.setPair dl w).x j
              = if j = dl then w.extractLsb' 0 8 else if j = dh then w.extractLsb' 8 8 else s.x j

/-- 10_state.md rule R26: the places of the flags in SREG, and that packing and unpacking lose nothing. -/
def Obligations.SregPacksItsFlagsByPosition : Prop :=
  (∀ f : Sreg, f.toByte.getLsbD 7 = f.i ∧ f.toByte.getLsbD 6 = f.t ∧ f.toByte.getLsbD 5 = f.h ∧ f.toByte.getLsbD 4 = f.s
      ∧ f.toByte.getLsbD 3 = f.v ∧ f.toByte.getLsbD 2 = f.n ∧ f.toByte.getLsbD 1 = f.z ∧ f.toByte.getLsbD 0 = f.c
      ∧ Sreg.ofByte f.toByte = f)
    ∧ ∀ b : Byte, (Sreg.ofByte b).toByte = b

/-- What the host loads is what the fetch reads (20_memory.md rules R40, R42; 70_reset_and_hazards.md rule R224): after a
program is loaded at `a` each of its words is read back, low byte at the lower address, no byte outside it changes, the
registers, SREG, the counter and the device stay as they were, and the invariant is kept. That memory is kept in byte cells
is the model's choice (log 5), as is that the host's load is this operation (log 16). -/
def Obligations.LoadedProgramIsWhatTheFetchReads : Prop :=
  ∀ (s : State) (a : Nat) (ws : List Word), a + ws.length ≤ s.dev.flashWords →
    ProgramAt a ws (s.progLoad a ws)
      ∧ (∀ k w, ws[k]? = some w →
          (s.progLoad a ws).readByte (2 * (a + k)) = some (lowByte w)
            ∧ (s.progLoad a ws).readByte (2 * (a + k) + 1) = some (highByte w))
      ∧ (∀ b, b < 2 * a ∨ 2 * (a + ws.length) ≤ b → (s.progLoad a ws).readByte b = s.readByte b)
      ∧ ((∀ j, (s.progLoad a ws).x j = s.x j) ∧ (s.progLoad a ws).sreg = s.sreg ∧ (s.progLoad a ws).pc = s.pc
          ∧ (s.progLoad a ws).dev = s.dev)
      ∧ (s.inv = true → (s.progLoad a ws).inv = true)

/-! ### Encoding -/

/-- Words written out bit by bit from the rows of the spec, one of each format or more, and words that are none of the 24. -/
def Obligations.SampleWordsDecodeAsTheSpecWritesThem : Prop :=
  decode 0b0010001000001111#16 = some (.and 0 31)
    ∧ decode 0b0000101111111111#16 = some (.sbc 31 31)
    ∧ decode 0b0111111100000000#16 = some (.andi 16 0xF0#8)
    ∧ decode 0b0100010111101010#16 = some (.sbci 30 0x5A#8)
    ∧ decode 0b1110111111111111#16 = some (.ser 31)
    ∧ decode 0b1001010111110001#16 = some (.neg 31)
    ∧ decode 0b1001011001010000#16 = some (.adiw 26 16#6)
    ∧ decode 0b1001011111000000#16 = some (.sbiw 24 48#6)
    ∧ decode 0b0000110001010101#16 = some (.add 5 5)
    ∧ decode 0x0000#16 = none ∧ decode 0xE000#16 = none ∧ decode 0x940C#16 = none ∧ decode 0xFFFF#16 = none

/-- 30_encoding.md rule R68: a word covered by a row is that row's instruction (for the rows of LSL, ROL and CLR, the
instruction their word decodes to), no two rows but those three cover one word, and a word no row covers decodes to none. -/
def Obligations.OpcodeTableDecidesTheDecoder : Prop :=
  (∀ row ∈ opcodeRows, ∀ w, row.covers w = true →
      ∃ i : Instr, decode w = some i.canonical ∧ i.mnemonic = row.mnemonic ∧ i.wellFormed = true)
    ∧ (∀ r₁ ∈ opcodeRows, ∀ r₂ ∈ opcodeRows, r₁.secondName = false → r₂.secondName = false →
        ∀ w, r₁.covers w = true → r₂.covers w = true → r₁ = r₂)
    ∧ ∀ w, (∀ row ∈ opcodeRows, row.covers w = false) → decode w = none

/-- 30_encoding.md rule R71: the encoder is the decoder's inverse, with every operand at every value an encoding admits;
LSL, ROL and CLR come back as ADD, ADC and EOR (rule R70). -/
def Obligations.DecodeReturnsWhatWasEncoded : Prop :=
  ∀ i : Instr, i.wellFormed = true →
    ∃ w, encode i = some w ∧ decode w = some i.canonical
      ∧ decodeBytes [lowByte w, highByte w] = .ok (i.canonical, [])

/-- The other direction (95_test_vectors.md X12): a decoded word is the word its instruction encodes to, the instruction is
well-formed and is none of LSL, ROL, CLR; so no two words decode to one instruction. -/
def Obligations.EncodeReturnsTheDecodedWord : Prop :=
  ∀ (w : Word) (i : Instr), decode w = some i →
    i.wellFormed = true ∧ encode i = some w ∧ i.canonical = i ∧ ∀ d, i ≠ .lsl d ∧ i ≠ .rol d ∧ i ≠ .clr d

/-- 30_encoding.md rule R70: LSL, ROL and CLR have the words of ADD, ADC and EOR with r = d, whose meaning is the same. -/
def Obligations.SecondNamesAreAddAdcEorOfOneRegister : Prop :=
  ∀ (d : RegNum) (s : State),
    (encode (.lsl d) = encode (.add d d) ∧ exec (.lsl d) s = exec (.add d d) s)
      ∧ (encode (.rol d) = encode (.adc d d) ∧ exec (.rol d) s = exec (.adc d d) s)
      ∧ (encode (.clr d) = encode (.eor d d) ∧ exec (.clr d) s = exec (.eor d d) s)

/-! ### The step -/

/-- 20_memory.md rule R41. The counter is advanced by the instruction's own meaning, once. -/
def Obligations.StepFetchesDecodesAndExecutes : Prop :=
  ∀ s : State,
    (s.dev.flashWords ≤ s.pc → step s = .refused (.outOfScopeFetch s.pc))
      ∧ (s.pc < s.dev.flashWords → ∀ w, s.progRead s.pc = .ok w →
          (decode w = none → step s = .refused (.outOfScopeWord w s.pc))
            ∧ ∀ i, decode w = some i →
                step s = exec i s ∧ ∃ t, step s = .next t ∧ t.pc = (s.pc + 1) % 2 ^ s.dev.pcBits)

/-- A step runs the decoded instruction (20_memory.md rule R41): when the two bytes at the counter are those of a well-formed
instruction, the step is `exec` of what they decode to, and nothing more. The byte cells, the low byte at `2 * pc`, are the
model's choice and the spec's byte order (20_memory.md rule R42, log 5); the instruction decoded is the canonical one, ADD,
ADC or EOR for LSL, ROL or CLR, and its `exec` is that of the instruction encoded (30_encoding.md rules R70, R71, log 14). -/
def Obligations.StepRunsTheInstructionAtTheCounter : Prop :=
  ∀ (s : State) (i : Instr) (w : Word), s.pc < s.dev.flashWords → encode i = some w →
    s.readByte (2 * s.pc) = some (lowByte w) → s.readByte (2 * s.pc + 1) = some (highByte w) →
    step s = exec i.canonical s ∧ step s = exec i s

/-- 60_exceptions.md rules R200, R201 and the model's choice of log 4: a step that does not go on was refused for one of the
two causes of `OutOfScope`, or fetched a byte that nothing supplied; there is no other stop. -/
def Obligations.StepStopsForNoOtherReason : Prop :=
  ∀ s : State,
    (∀ r, step s = .refused r →
        (r = .outOfScopeFetch s.pc ∧ s.dev.flashWords ≤ s.pc)
          ∨ ∃ w, r = .outOfScopeWord w s.pc ∧ s.pc < s.dev.flashWords ∧ s.progRead s.pc = .ok w ∧ decode w = none)
      ∧ ∀ f, step s = .fault f →
          s.pc < s.dev.flashWords
            ∧ ∃ a, f = .unprogrammed a ∧ (a = 2 * s.pc ∨ a = 2 * s.pc + 1) ∧ s.readByte a = none

/-- 60_exceptions.md rules R200, R210, R213: no instruction raises anything, transfers control or needs a mode; each, in
every state, ends with the next word address, and writes nothing but its destination, flags and the counter. -/
def Obligations.EveryInstructionCompletesInEveryState : Prop :=
  ∀ (i : Instr) (s : State), ∃ t, exec i s = .next t ∧ KeepsRest (destinations i) s t

/-- The invariant is kept by every step from every state that has it, and the counter goes to the plain successor: no
wrap is seen (10_state.md rule R24). -/
def Obligations.EveryStepKeepsTheInvariant : Prop :=
  ∀ s t : State, s.inv = true → step s = .next t → t.inv = true ∧ t.pc = s.pc + 1

/-- 20_memory.md rules R40, R51, 10_state.md rule R27 and 60_exceptions.md rule R203: over any number of steps from any state,
program memory, the device's parameters and the flags I and T stay as they were, so `NoInterrupts` stays true. -/
def Obligations.RunsKeepProgramMemoryAndInterruptFlag : Prop :=
  ∀ (n : Nat) (s t : State), runSteps n s = .next t →
    t.flash = s.flash ∧ t.dev = s.dev ∧ t.sreg.i = s.sreg.i ∧ t.sreg.t = s.sreg.t ∧ (NoInterrupts s → NoInterrupts t)

/-- 60_exceptions.md rule R210: a run of n instructions from word address a ends with `pc = a + n`. -/
def Obligations.RunOfNInstructionsEndsNWordsOn : Prop :=
  ∀ (n : Nat) (s t : State), s.inv = true → runSteps n s = .next t → t.pc = s.pc + n ∧ t.inv = true

/-- 70_reset_and_hazards.md rule R223: a run to `END_PC` ends or is refused; fuel `END_PC − pc` is exact, being so many
steps of the machine; with the word of one of the 24 instructions at every address up to `END_PC` it ends in a final state. -/
def Obligations.RunToEndPcIsExact : Prop :=
  ∀ (s : State) (endPc : Nat), s.inv = true → NoInterrupts s → s.pc ≤ endPc → endPc ≤ s.dev.flashWords →
    launch endPc s = runSteps (endPc - s.pc) s
      ∧ (∀ k, runTo endPc (endPc - s.pc + k) s = runTo endPc (endPc - s.pc) s)
      ∧ (∀ t, launch endPc s = .next t → t.isFinal endPc = true)
      ∧ ((∀ a, s.pc ≤ a → a < endPc → ∃ w i, s.progRead a = .ok w ∧ decode w = some i) → SafeRun endPc s)

/-- 60_exceptions.md rule R203 with 93_implementation_defined.md U8 (log 12): a launch with `SREG.I = 1` is refused at launch;
one with `SREG.I = 0` from a final state is over at once. -/
def Obligations.LaunchRefusesInterruptsEnabled : Prop :=
  ∀ (s : State) (endPc : Nat),
    (s.sreg.i = true → launch endPc s = .refused .launchWithInterruptsEnabled)
      ∧ (s.sreg.i = false → s.pc = endPc → launch endPc s = .next s)

/-! ### Flags -/

/-- 10_state.md rule R27, the matrix: a flag marked `_` is kept, one marked `0` is cleared, one marked `1` is set. -/
def Obligations.FlagMatrixIsObeyed : Prop :=
  ∀ (i : Instr) (s t : State), exec i s = .next t → ∀ f,
    ((flagRow i).cell f = .kept → t.sreg.flag f = s.sreg.flag f)
      ∧ ((flagRow i).cell f = .zero → t.sreg.flag f = false)
      ∧ ((flagRow i).cell f = .one → t.sreg.flag f = true)

/-- 10_state.md rule R27, its last sentence: results and written flags depend on the general registers, on C for ADC, SBC,
SBCI, ROL and ROR, on Z for SBC and SBCI, and on nothing else of the state (not on the counter or on program memory). -/
def Obligations.ResultsDependOnlyOnRegistersCarryAndZero : Prop :=
  ∀ (i : Instr) (s₁ s₂ t₁ t₂ : State), (∀ j, s₁.x j = s₂.x j) → (readsC i = true → s₁.sreg.c = s₂.sreg.c) →
    (readsZ i = true → s₁.sreg.z = s₂.sreg.z) → exec i s₁ = .next t₁ → exec i s₂ = .next t₂ →
    (∀ j, t₁.x j = t₂.x j) ∧ ∀ f, (flagRow i).cell f ≠ .kept → t₁.sreg.flag f = t₂.sreg.flag f

/-- 10_state.md rule R29: every line of `add8`, both forms of C, H and V, and what V says of the signed sum. -/
def Obligations.Add8FormsAgree : Prop :=
  ∀ (a b : Byte) (c : Bool), ∃ r, (add8 a b c).r = r ∧ r.toNat = (a.toNat + b.toNat + c.toNat) % 256
    ∧ (add8 a b c).c = decide (256 ≤ a.toNat + b.toNat + c.toNat)
    ∧ (add8 a b c).c = (a.getLsbD 7 && b.getLsbD 7 || b.getLsbD 7 && !r.getLsbD 7 || !r.getLsbD 7 && a.getLsbD 7)
    ∧ (add8 a b c).h = decide (16 ≤ a.toNat % 16 + b.toNat % 16 + c.toNat)
    ∧ (add8 a b c).h = (a.getLsbD 3 && b.getLsbD 3 || b.getLsbD 3 && !r.getLsbD 3 || !r.getLsbD 3 && a.getLsbD 3)
    ∧ (add8 a b c).v = (a.getLsbD 7 == b.getLsbD 7 && r.getLsbD 7 != a.getLsbD 7)
    ∧ (add8 a b c).v
        = (a.getLsbD 7 && b.getLsbD 7 && !r.getLsbD 7 || !a.getLsbD 7 && !b.getLsbD 7 && r.getLsbD 7)
    ∧ (add8 a b c).v = decide (a.toInt + b.toInt + c.toNat < -128 ∨ 127 < a.toInt + b.toInt + c.toNat)
    ∧ (add8 a b c).n = r.getLsbD 7 ∧ (add8 a b c).z = decide (r = 0x00#8)
    ∧ (add8 a b c).s = ((add8 a b c).n ^^ (add8 a b c).v)
    ∧ (add8 a b c).s = decide (a.toInt + b.toInt + c.toNat < 0)

/-- 10_state.md rule R30: every line of `sub8`, both forms of C, H and V, what V says of the signed difference, the plain Z
and the sticky Z. -/
def Obligations.Sub8FormsAgree : Prop :=
  ∀ (a b : Byte) (c z : Bool), ∃ r, (sub8 a b c).r = r
    ∧ (r.toNat : Int) = ((a.toNat : Int) - b.toNat - c.toNat) % 256
    ∧ (sub8 a b c).c = decide ((a.toNat : Int) - b.toNat - c.toNat < 0)
    ∧ (sub8 a b c).c = (!a.getLsbD 7 && b.getLsbD 7 || b.getLsbD 7 && r.getLsbD 7 || r.getLsbD 7 && !a.getLsbD 7)
    ∧ (sub8 a b c).h = decide (((a.toNat % 16 : Nat) : Int) - (b.toNat % 16 : Nat) - c.toNat < 0)
    ∧ (sub8 a b c).h = (!a.getLsbD 3 && b.getLsbD 3 || b.getLsbD 3 && r.getLsbD 3 || r.getLsbD 3 && !a.getLsbD 3)
    ∧ (sub8 a b c).v = (a.getLsbD 7 != b.getLsbD 7 && r.getLsbD 7 != a.getLsbD 7)
    ∧ (sub8 a b c).v
        = (a.getLsbD 7 && !b.getLsbD 7 && !r.getLsbD 7 || !a.getLsbD 7 && b.getLsbD 7 && r.getLsbD 7)
    ∧ (sub8 a b c).v = decide (a.toInt - b.toInt - c.toNat < -128 ∨ 127 < a.toInt - b.toInt - c.toNat)
    ∧ (sub8 a b c).n = r.getLsbD 7 ∧ (sub8 a b c).s = ((sub8 a b c).n ^^ (sub8 a b c).v)
    ∧ (sub8 a b c).z = decide (r = 0x00#8)
    ∧ sub8Sticky a b c z = { sub8 a b c with z := decide (r = 0x00#8) && z }

/-- 10_state.md rule R34: the word flags in both forms, what V says of the signed result, and that H is not written. -/
def Obligations.WordFlagFormsAgree : Prop :=
  ∀ (p : Word) (k : BitVec 6),
    (∃ r, (adiw16 p k).r = r ∧ r.toNat = (p.toNat + k.toNat) % 65536
        ∧ (adiw16 p k).c = decide (65536 ≤ p.toNat + k.toNat) ∧ (adiw16 p k).c = (!r.getLsbD 15 && p.getLsbD 15)
        ∧ (adiw16 p k).v = (!p.getLsbD 15 && r.getLsbD 15) ∧ (adiw16 p k).v = decide (32767 < p.toInt + k.toNat)
        ∧ (adiw16 p k).n = r.getLsbD 15 ∧ (adiw16 p k).z = decide (r = 0x0000#16)
        ∧ (adiw16 p k).s = ((adiw16 p k).n ^^ (adiw16 p k).v)
        ∧ ∀ f : Sreg, (f.putAlu16 (adiw16 p k)).h = f.h)
      ∧ ∃ r, (sbiw16 p k).r = r ∧ (r.toNat : Int) = ((p.toNat : Int) - k.toNat) % 65536
        ∧ (sbiw16 p k).c = decide (p.toNat < k.toNat) ∧ (sbiw16 p k).c = (r.getLsbD 15 && !p.getLsbD 15)
        ∧ (sbiw16 p k).v = (p.getLsbD 15 && !r.getLsbD 15) ∧ (sbiw16 p k).v = decide (p.toInt - k.toNat < -32768)
        ∧ (sbiw16 p k).n = r.getLsbD 15 ∧ (sbiw16 p k).z = decide (r = 0x0000#16)
        ∧ (sbiw16 p k).s = ((sbiw16 p k).n ^^ (sbiw16 p k).v)
        ∧ ∀ f : Sreg, (f.putAlu16 (sbiw16 p k)).h = f.h

/-! ### Logical instructions (40_logical.md) -/

/-- Rules R101, R103, R105: AND, OR, EOR, for every pair of registers, d = r included. -/
def Obligations.AndOrEorCombineTwoRegisters : Prop :=
  Claims.EncodedRR 0b001000#6 .and ∧ Claims.EncodedRR 0b001010#6 .or ∧ Claims.EncodedRR 0b001001#6 .eor
    ∧ ∀ (d r : RegNum) (s : State),
        Claims.LogicalOutcome d (s.x d &&& s.x r) s (exec (.and d r) s)
          ∧ Claims.LogicalOutcome d (s.x d ||| s.x r) s (exec (.or d r) s)
          ∧ Claims.LogicalOutcome d (s.x d ^^^ s.x r) s (exec (.eor d r) s)
          ∧ Instr.cycles (.and d r) = 1 ∧ Instr.cycles (.or d r) = 1 ∧ Instr.cycles (.eor d r) = 1

/-- Rules R102, R104: ANDI and ORI, for R16 to R31 and every constant. -/
def Obligations.AndiOriCombineARegisterAndAConstant : Prop :=
  Claims.EncodedRI 0b0111#4 .andi ∧ Claims.EncodedRI 0b0110#4 .ori
    ∧ ∀ (d : RegNum) (k : Byte) (s : State), 16 ≤ d.val →
        Claims.LogicalOutcome d (s.x d &&& k) s (exec (.andi d k) s)
          ∧ Claims.LogicalOutcome d (s.x d ||| k) s (exec (.ori d k) s)
          ∧ Instr.cycles (.andi d k) = 1 ∧ Instr.cycles (.ori d k) = 1

/-! ### Shifts and rotations (41_shift_rotate.md) -/

/-- Rule R111. Its word is that of ADD Rd, Rd. -/
def Obligations.LslShiftsZeroInAndBitSevenOut : Prop :=
  (∀ d : BitVec 5, encode (.lsl d.toFin) = some (Claims.rowRR 0b000011#6 d d)
      ∧ decode (Claims.rowRR 0b000011#6 d d) = some (.add d.toFin d.toFin))
    ∧ ∀ (d : RegNum) (s : State), ∃ t, exec (.lsl d) s = .next t
        ∧ (∀ k, k < 7 → (t.x d).getLsbD (k + 1) = (s.x d).getLsbD k) ∧ (t.x d).getLsbD 0 = false
        ∧ (t.x d).toNat = 2 * (s.x d).toNat % 256
        ∧ Claims.ShiftLeftFlags (s.x d) (t.x d) t ∧ KeepsRest [d] s t ∧ Instr.cycles (.lsl d) = 1

/-- Rule R112. -/
def Obligations.LsrShiftsZeroInAndBitZeroOut : Prop :=
  Claims.EncodedR1 0b0110#4 .lsr
    ∧ ∀ (d : RegNum) (s : State), ∃ t, exec (.lsr d) s = .next t
        ∧ (∀ k, k < 7 → (t.x d).getLsbD k = (s.x d).getLsbD (k + 1)) ∧ (t.x d).getLsbD 7 = false
        ∧ (t.x d).toNat = (s.x d).toNat / 2 ∧ t.sreg.n = false ∧ t.sreg.v = (s.x d).getLsbD 0
        ∧ Claims.ShiftRightFlags (t.x d) ((s.x d).getLsbD 0) s t ∧ KeepsRest [d] s t ∧ Instr.cycles (.lsr d) = 1

/-- Rule R113. Its word is that of ADC Rd, Rd. -/
def Obligations.RolShiftsCarryInAndBitSevenOut : Prop :=
  (∀ d : BitVec 5, encode (.rol d.toFin) = some (Claims.rowRR 0b000111#6 d d)
      ∧ decode (Claims.rowRR 0b000111#6 d d) = some (.adc d.toFin d.toFin))
    ∧ ∀ (d : RegNum) (s : State), ∃ t, exec (.rol d) s = .next t
        ∧ (∀ k, k < 7 → (t.x d).getLsbD (k + 1) = (s.x d).getLsbD k) ∧ (t.x d).getLsbD 0 = s.sreg.c
        ∧ (t.x d).toNat = (2 * (s.x d).toNat + s.sreg.c.toNat) % 256
        ∧ Claims.ShiftLeftFlags (s.x d) (t.x d) t ∧ KeepsRest [d] s t ∧ Instr.cycles (.rol d) = 1

/-- Rule R114. -/
def Obligations.RorShiftsCarryInAndBitZeroOut : Prop :=
  Claims.EncodedR1 0b0111#4 .ror
    ∧ ∀ (d : RegNum) (s : State), ∃ t, exec (.ror d) s = .next t
        ∧ (∀ k, k < 7 → (t.x d).getLsbD k = (s.x d).getLsbD (k + 1)) ∧ (t.x d).getLsbD 7 = s.sreg.c
        ∧ Claims.ShiftRightFlags (t.x d) ((s.x d).getLsbD 0) s t ∧ KeepsRest [d] s t ∧ Instr.cycles (.ror d) = 1

/-- Rule R115. -/
def Obligations.AsrKeepsBitSevenAndHalvesTheSignedValue : Prop :=
  Claims.EncodedR1 0b0101#4 .asr
    ∧ ∀ (d : RegNum) (s : State), ∃ t, exec (.asr d) s = .next t
        ∧ (∀ k, k < 7 → (t.x d).getLsbD k = (s.x d).getLsbD (k + 1)) ∧ (t.x d).getLsbD 7 = (s.x d).getLsbD 7
        ∧ (t.x d).toInt = (s.x d).toInt / 2
        ∧ Claims.ShiftRightFlags (t.x d) ((s.x d).getLsbD 0) s t ∧ KeepsRest [d] s t ∧ Instr.cycles (.asr d) = 1

/-! ### Set and clear (42_set_clear.md), increment and decrement (43_inc_dec.md) -/

/-- Rule R121: 0xFF into R16 to R31, no flag written. -/
def Obligations.SerLoadsAllOnesAndWritesNoFlag : Prop :=
  (∀ (dddd : BitVec 4) (d : RegNum), d.val = 16 + dddd.toNat →
      Claims.HasWord (.ser d) (0b1110#4 ++ 0b1111#4 ++ dddd ++ 0b1111#4))
    ∧ (∀ d : RegNum, d.val < 16 → encode (.ser d) = none)
    ∧ ∀ (d : RegNum) (s : State), 16 ≤ d.val →
        ∃ t, exec (.ser d) s = .next t ∧ t.x d = 0xFF#8 ∧ t.sreg = s.sreg ∧ KeepsRest [d] s t
          ∧ Instr.cycles (.ser d) = 1

/-- Rule R122: 0x00, with S, V, N cleared and Z set. Its word is that of EOR Rd, Rd. -/
def Obligations.ClrLoadsZeroWithConstantFlags : Prop :=
  (∀ d : BitVec 5, encode (.clr d.toFin) = some (Claims.rowRR 0b001001#6 d d)
      ∧ decode (Claims.rowRR 0b001001#6 d d) = some (.eor d.toFin d.toFin))
    ∧ ∀ (d : RegNum) (s : State), ∃ t, exec (.clr d) s = .next t ∧ t.x d = 0x00#8
        ∧ t.sreg = { s.sreg with s := false, v := false, n := false, z := true }
        ∧ KeepsRest [d] s t ∧ Instr.cycles (.clr d) = 1

/-- Rule R131: V exactly when the operand was 0x7F; C and H kept. -/
def Obligations.IncAddsOneAndKeepsCarry : Prop :=
  Claims.EncodedR1 0b0011#4 .inc
    ∧ ∀ (d : RegNum) (s : State), ∃ t, exec (.inc d) s = .next t
        ∧ (t.x d).toNat = ((s.x d).toNat + 1) % 256
        ∧ t.sreg.v = decide (t.x d = 0x80#8) ∧ t.sreg.v = decide (s.x d = 0x7F#8)
        ∧ t.sreg.n = (t.x d).getLsbD 7 ∧ t.sreg.z = decide (t.x d = 0x00#8) ∧ t.sreg.s = (t.sreg.n ^^ t.sreg.v)
        ∧ t.sreg.c = s.sreg.c ∧ t.sreg.h = s.sreg.h ∧ KeepsRest [d] s t ∧ Instr.cycles (.inc d) = 1

/-- Rule R132: V exactly when the operand was 0x80; C and H kept. -/
def Obligations.DecSubtractsOneAndKeepsCarry : Prop :=
  Claims.EncodedR1 0b1010#4 .dec
    ∧ ∀ (d : RegNum) (s : State), ∃ t, exec (.dec d) s = .next t
        ∧ (t.x d).toNat = ((s.x d).toNat + 255) % 256
        ∧ t.sreg.v = decide (t.x d = 0x7F#8) ∧ t.sreg.v = decide (s.x d = 0x80#8)
        ∧ t.sreg.n = (t.x d).getLsbD 7 ∧ t.sreg.z = decide (t.x d = 0x00#8) ∧ t.sreg.s = (t.sreg.n ^^ t.sreg.v)
        ∧ t.sreg.c = s.sreg.c ∧ t.sreg.h = s.sreg.h ∧ KeepsRest [d] s t ∧ Instr.cycles (.dec d) = 1

/-! ### Additions and subtractions (44_add_sub.md) -/

/-- Rules R141, R144: ADD without and ADC with the carry flag before, for every pair of registers. -/
def Obligations.AddAndAdcAddTwoRegisters : Prop :=
  Claims.EncodedRR 0b000011#6 .add ∧ Claims.EncodedRR 0b000111#6 .adc
    ∧ ∀ (d r : RegNum) (s : State),
        Claims.AddOutcome d (s.x d) (s.x r) false s (exec (.add d r) s)
          ∧ Claims.AddOutcome d (s.x d) (s.x r) s.sreg.c s (exec (.adc d r) s)
          ∧ Instr.cycles (.add d r) = 1 ∧ Instr.cycles (.adc d r) = 1

/-- Rules R142, R143: SUB and SUBI, with the plain Z, the carry flag before not read. -/
def Obligations.SubAndSubiSubtractWithoutBorrow : Prop :=
  Claims.EncodedRR 0b000110#6 .sub ∧ Claims.EncodedRI 0b0101#4 .subi
    ∧ (∀ (d r : RegNum) (s : State),
        Claims.SubOutcome d (s.x d) (s.x r) false true s (exec (.sub d r) s) ∧ Instr.cycles (.sub d r) = 1)
    ∧ ∀ (d : RegNum) (k : Byte) (s : State), 16 ≤ d.val →
        Claims.SubOutcome d (s.x d) k false true s (exec (.subi d k) s) ∧ Instr.cycles (.subi d k) = 1

/-- Rules R145, R146: SBC and SBCI subtract the carry flag before and can keep or clear Z, never set it. SBC's row is the
spec's own choice (30_encoding.md rule R69, log 7). -/
def Obligations.SbcAndSbciSubtractWithBorrowAndStickyZero : Prop :=
  Claims.EncodedRR 0b000010#6 .sbc ∧ Claims.EncodedRI 0b0100#4 .sbci
    ∧ (∀ (d r : RegNum) (s : State),
        Claims.SubOutcome d (s.x d) (s.x r) s.sreg.c s.sreg.z s (exec (.sbc d r) s) ∧ Instr.cycles (.sbc d r) = 1)
    ∧ ∀ (d : RegNum) (k : Byte) (s : State), 16 ≤ d.val →
        Claims.SubOutcome d (s.x d) k s.sreg.c s.sreg.z s (exec (.sbci d k) s) ∧ Instr.cycles (.sbci d k) = 1

/-- 44_add_sub.md rule R147: ADD on the low bytes then ADC on the high bytes adds 16-bit numbers; C, V, N and S describe the
whole sum. The second operands may be any registers but the first destination. -/
def Obligations.AddThenAdcAddsSixteenBits : Prop :=
  ∀ (al ah bl bh : RegNum) (s s₁ s₂ : State), ah ≠ al → bh ≠ al →
    exec (.add al bl) s = .next s₁ → exec (.adc ah bh) s₁ = .next s₂ →
    ∀ a b : Word, a = s.x ah ++ s.x al → b = s.x bh ++ s.x bl →
      s₂.x ah ++ s₂.x al = a + b ∧ s₂.sreg.c = decide (65536 ≤ a.toNat + b.toNat)
        ∧ s₂.sreg.v = decide (a.toInt + b.toInt < -32768 ∨ 32767 < a.toInt + b.toInt)
        ∧ s₂.sreg.n = (a + b).getLsbD 15 ∧ s₂.sreg.s = decide (a.toInt + b.toInt < 0)
        ∧ KeepsRest [al, ah] { s with pc := (s.pc + 1) % 2 ^ s.dev.pcBits } s₂

/-- 44_add_sub.md rule R147: SUB on the low bytes then SBC on the high bytes subtracts 16-bit numbers; C, V, N, S and, thanks
to the sticky Z, Z describe the whole difference. -/
def Obligations.SubThenSbcSubtractsSixteenBits : Prop :=
  ∀ (al ah bl bh : RegNum) (s s₁ s₂ : State), ah ≠ al → bh ≠ al →
    exec (.sub al bl) s = .next s₁ → exec (.sbc ah bh) s₁ = .next s₂ →
    ∀ a b : Word, a = s.x ah ++ s.x al → b = s.x bh ++ s.x bl →
      s₂.x ah ++ s₂.x al = a - b ∧ s₂.sreg.c = decide (a.toNat < b.toNat) ∧ s₂.sreg.z = decide (a = b)
        ∧ s₂.sreg.v = decide (a.toInt - b.toInt < -32768 ∨ 32767 < a.toInt - b.toInt)
        ∧ s₂.sreg.n = (a - b).getLsbD 15 ∧ s₂.sreg.s = decide (a.toInt < b.toInt)
        ∧ KeepsRest [al, ah] { s with pc := (s.pc + 1) % 2 ^ s.dev.pcBits } s₂

/-! ### Word arithmetic (45_word_arith.md) -/

/-- Rule R151: the pair is `x[dl+1] :: x[dl]`. -/
def Obligations.AdiwAddsAConstantToAPair : Prop :=
  Claims.EncodedWI 0#1 .adiw
    ∧ ∀ (dl dh : RegNum) (k : BitVec 6) (s : State) (p : Word), isPairLow dl = true → dh.val = dl.val + 1 →
        p = s.x dh ++ s.x dl →
        ∃ t r, exec (.adiw dl k) s = .next t ∧ t.x dl = r.extractLsb' 0 8 ∧ t.x dh = r.extractLsb' 8 8
          ∧ (r : Word).toNat = (p.toNat + k.toNat) % 65536 ∧ t.sreg.c = decide (65536 ≤ p.toNat + k.toNat)
          ∧ t.sreg.v = (!p.getLsbD 15 && r.getLsbD 15) ∧ t.sreg.n = r.getLsbD 15 ∧ t.sreg.z = decide (r = 0x0000#16)
          ∧ t.sreg.s = (t.sreg.n ^^ t.sreg.v) ∧ t.sreg.h = s.sreg.h ∧ KeepsRest [dl, dh] s t
          ∧ Instr.cycles (.adiw dl k) = 2

/-- Rule R152. -/
def Obligations.SbiwSubtractsAConstantFromAPair : Prop :=
  Claims.EncodedWI 1#1 .sbiw
    ∧ ∀ (dl dh : RegNum) (k : BitVec 6) (s : State) (p : Word), isPairLow dl = true → dh.val = dl.val + 1 →
        p = s.x dh ++ s.x dl →
        ∃ t r, exec (.sbiw dl k) s = .next t ∧ t.x dl = r.extractLsb' 0 8 ∧ t.x dh = r.extractLsb' 8 8
          ∧ ((r : Word).toNat : Int) = ((p.toNat : Int) - k.toNat) % 65536 ∧ t.sreg.c = decide (p.toNat < k.toNat)
          ∧ t.sreg.v = (p.getLsbD 15 && !r.getLsbD 15) ∧ t.sreg.n = r.getLsbD 15 ∧ t.sreg.z = decide (r = 0x0000#16)
          ∧ t.sreg.s = (t.sreg.n ^^ t.sreg.v) ∧ t.sreg.h = s.sreg.h ∧ KeepsRest [dl, dh] s t
          ∧ Instr.cycles (.sbiw dl k) = 2

/-! ### Complements (46_complement.md) -/

/-- Rule R161: `0xFF − Rd`, C always set. -/
def Obligations.ComInvertsAndSetsCarry : Prop :=
  Claims.EncodedR1 0b0000#4 .com
    ∧ ∀ (d : RegNum) (s : State), ∃ t, exec (.com d) s = .next t
        ∧ (∀ k, k < 8 → (t.x d).getLsbD k = !(s.x d).getLsbD k) ∧ (t.x d).toNat = 255 - (s.x d).toNat
        ∧ t.sreg.c = true ∧ t.sreg.v = false ∧ t.sreg.n = (t.x d).getLsbD 7
        ∧ t.sreg.z = decide (t.x d = 0x00#8) ∧ t.sreg.z = decide (s.x d = 0xFF#8) ∧ t.sreg.s = (t.x d).getLsbD 7
        ∧ t.sreg.h = s.sreg.h ∧ KeepsRest [d] s t ∧ Instr.cycles (.com d) = 1

/-- Rule R162: `0x00 − Rd`, each flag in the forms the rule gives, and 0x80 unchanged. -/
def Obligations.NegNegatesWithBorrowFlags : Prop :=
  Claims.EncodedR1 0b0001#4 .neg
    ∧ ∀ (d : RegNum) (s : State), ∃ t, exec (.neg d) s = .next t
        ∧ ((t.x d).toNat : Int) = (0 - ((s.x d).toNat : Int)) % 256
        ∧ t.sreg.c = decide (t.x d ≠ 0x00#8) ∧ t.sreg.c = decide (s.x d ≠ 0x00#8)
        ∧ t.sreg.h = ((t.x d).getLsbD 3 || (s.x d).getLsbD 3) ∧ t.sreg.h = decide ((s.x d).toNat % 16 ≠ 0)
        ∧ t.sreg.v = decide (t.x d = 0x80#8) ∧ t.sreg.v = decide (s.x d = 0x80#8)
        ∧ t.sreg.n = (t.x d).getLsbD 7 ∧ t.sreg.z = decide (t.x d = 0x00#8) ∧ t.sreg.z = decide (s.x d = 0x00#8)
        ∧ t.sreg.s = (t.sreg.n ^^ t.sreg.v) ∧ (s.x d = 0x80#8 → t.x d = 0x80#8)
        ∧ Claims.SubOutcome d 0x00#8 (s.x d) false true s (.next t) ∧ KeepsRest [d] s t ∧ Instr.cycles (.neg d) = 1

/-- 46_complement.md rule R160 and 95_test_vectors.md F8, F9, F10: NEG is COM and one more; COM twice, NEG twice, INC and
DEC, ROL and ROR give the register back, the last with C. -/
def Obligations.InversePairsGiveTheRegisterBack : Prop :=
  ∀ (d : RegNum) (s s₁ s₂ : State),
    ((exec (.com d) s = .next s₁ → exec (.com d) s₁ = .next s₂ → s₂.x d = s.x d)
      ∧ (exec (.neg d) s = .next s₁ → exec (.neg d) s₁ = .next s₂ → s₂.x d = s.x d)
      ∧ (exec (.inc d) s = .next s₁ → exec (.dec d) s₁ = .next s₂ → s₂.x d = s.x d)
      ∧ (exec (.com d) s = .next s₁ → exec (.neg d) s = .next s₂ → s₂.x d = s₁.x d + 1#8)
      ∧ (exec (.rol d) s = .next s₁ → exec (.ror d) s₁ = .next s₂ → s₂.x d = s.x d ∧ s₂.sreg.c = s.sreg.c))

/-! ### Timing -/

/-- 70_reset_and_hazards.md rule R231: 2 cycles for ADIW and SBIW, 1 for every other; a straight line takes `n1 + 2 * n2`. -/
def Obligations.StraightLineCyclesAreCounted : Prop :=
  (∀ i : Instr, i.cycles = if i.mnemonic = "ADIW" ∨ i.mnemonic = "SBIW" then 2 else 1)
    ∧ ∀ is : List Instr, cyclesOf is
        = is.countP (fun i => decide (i.cycles = 1)) + 2 * is.countP (fun i => decide (i.cycles = 2))
end

