-- ==== Sys2Proof/Laws/State.lean ====
section
/-! SUPPORT. The small lemmas of the state's updates, one for each field of each update, so that no later proof unfolds a
record update; and the fields of the flag writers. -/

namespace Sys2Proof.Machine

/-! ### Reading registers after an update -/

@[simp] theorem State.x_setX (s : State) (i j : RegNum) (v : Byte) :
    (s.setX i v).x j = if i = j then v else s.x j := by
  simp [State.x, State.setX, Vector.get_eq_getElem, Vector.getElem_set, Fin.ext_iff]

@[simp] theorem State.x_setSreg (s : State) (f : Sreg) (j : RegNum) : (s.setSreg f).x j = s.x j := rfl
@[simp] theorem State.x_advancePc (s : State) (j : RegNum) : s.advancePc.x j = s.x j := rfl

/-! ### `setX` -/

@[simp] theorem State.setX_pc (s : State) (i : RegNum) (v : Byte) : (s.setX i v).pc = s.pc := rfl
@[simp] theorem State.setX_sreg (s : State) (i : RegNum) (v : Byte) : (s.setX i v).sreg = s.sreg := rfl
@[simp] theorem State.setX_flash (s : State) (i : RegNum) (v : Byte) : (s.setX i v).flash = s.flash := rfl
@[simp] theorem State.setX_dev (s : State) (i : RegNum) (v : Byte) : (s.setX i v).dev = s.dev := rfl

/-! ### `setPair` -/

@[simp] theorem State.setPair_pc (s : State) (i : RegNum) (v : Word) : (s.setPair i v).pc = s.pc := rfl
@[simp] theorem State.setPair_sreg (s : State) (i : RegNum) (v : Word) : (s.setPair i v).sreg = s.sreg := rfl
@[simp] theorem State.setPair_flash (s : State) (i : RegNum) (v : Word) : (s.setPair i v).flash = s.flash := rfl
@[simp] theorem State.setPair_dev (s : State) (i : RegNum) (v : Word) : (s.setPair i v).dev = s.dev := rfl

/-! ### `setSreg` -/

@[simp] theorem State.setSreg_regs (s : State) (f : Sreg) : (s.setSreg f).regs = s.regs := rfl
@[simp] theorem State.setSreg_pc (s : State) (f : Sreg) : (s.setSreg f).pc = s.pc := rfl
@[simp] theorem State.setSreg_sreg (s : State) (f : Sreg) : (s.setSreg f).sreg = f := rfl
@[simp] theorem State.setSreg_flash (s : State) (f : Sreg) : (s.setSreg f).flash = s.flash := rfl
@[simp] theorem State.setSreg_dev (s : State) (f : Sreg) : (s.setSreg f).dev = s.dev := rfl

/-! ### `advancePc` -/

@[simp] theorem State.advancePc_regs (s : State) : s.advancePc.regs = s.regs := rfl
@[simp] theorem State.advancePc_pc (s : State) : s.advancePc.pc = (s.pc + 1) % 2 ^ s.dev.pcBits := rfl
@[simp] theorem State.advancePc_sreg (s : State) : s.advancePc.sreg = s.sreg := rfl
@[simp] theorem State.advancePc_flash (s : State) : s.advancePc.flash = s.flash := rfl
@[simp] theorem State.advancePc_dev (s : State) : s.advancePc.dev = s.dev := rfl

/-! ### I and T through the flag writers (10_state.md rule R27: no instruction writes them) -/

@[simp] theorem Sreg.putAlu8_i (f : Sreg) (u : Alu8) : (f.putAlu8 u).i = f.i := rfl
@[simp] theorem Sreg.putAlu8_t (f : Sreg) (u : Alu8) : (f.putAlu8 u).t = f.t := rfl
@[simp] theorem Sreg.putAlu16_i (f : Sreg) (u : Alu16) : (f.putAlu16 u).i = f.i := rfl
@[simp] theorem Sreg.putAlu16_t (f : Sreg) (u : Alu16) : (f.putAlu16 u).t = f.t := rfl
@[simp] theorem Sreg.putLogic_i (f : Sreg) (r : Byte) : (f.putLogic r).i = f.i := rfl
@[simp] theorem Sreg.putLogic_t (f : Sreg) (r : Byte) : (f.putLogic r).t = f.t := rfl
@[simp] theorem Sreg.putCom_i (f : Sreg) (r : Byte) : (f.putCom r).i = f.i := rfl
@[simp] theorem Sreg.putCom_t (f : Sreg) (r : Byte) : (f.putCom r).t = f.t := rfl
@[simp] theorem Sreg.putShr_i (f : Sreg) (r : Byte) (c0 : Bool) : (f.putShr r c0).i = f.i := rfl
@[simp] theorem Sreg.putShr_t (f : Sreg) (r : Byte) (c0 : Bool) : (f.putShr r c0).t = f.t := rfl
@[simp] theorem Sreg.putShl_i (f : Sreg) (a r : Byte) : (f.putShl a r).i = f.i := rfl
@[simp] theorem Sreg.putShl_t (f : Sreg) (a r : Byte) : (f.putShl a r).t = f.t := rfl
@[simp] theorem Sreg.putIncDec_i (f : Sreg) (r : Byte) (o : Bool) : (f.putIncDec r o).i = f.i := rfl
@[simp] theorem Sreg.putIncDec_t (f : Sreg) (r : Byte) (o : Bool) : (f.putIncDec r o).t = f.t := rfl
@[simp] theorem Sreg.putClr_i (f : Sreg) : f.putClr.i = f.i := rfl
@[simp] theorem Sreg.putClr_t (f : Sreg) : f.putClr.t = f.t := rfl
@[simp] theorem Sreg.putNeg_i (f : Sreg) (a r : Byte) : (f.putNeg a r).i = f.i := rfl
@[simp] theorem Sreg.putNeg_t (f : Sreg) (a r : Byte) : (f.putNeg a r).t = f.t := rfl

end Sys2Proof.Machine
end

