-- ==== Sys2Proof/Laws/Ops.lean ====
section
/-! SUPPORT. What each shared operation can do, said once: the two ways an instruction ends, and the meaning of each
instruction as one of them. -/

namespace Sys2Proof.Machine

/-! ### The end of an instruction with one destination register -/

@[simp] theorem State.writeback_x (s : State) (d : RegNum) (r : Byte) (f : Sreg) (j : RegNum) :
    (s.writeback d r f).x j = if d = j then r else s.x j := by
  simp [State.writeback]

@[simp] theorem State.writeback_sreg (s : State) (d : RegNum) (r : Byte) (f : Sreg) :
    (s.writeback d r f).sreg = f := rfl

@[simp] theorem State.writeback_pc (s : State) (d : RegNum) (r : Byte) (f : Sreg) :
    (s.writeback d r f).pc = (s.pc + 1) % 2 ^ s.dev.pcBits := rfl

@[simp] theorem State.writeback_flash (s : State) (d : RegNum) (r : Byte) (f : Sreg) :
    (s.writeback d r f).flash = s.flash := rfl

@[simp] theorem State.writeback_dev (s : State) (d : RegNum) (r : Byte) (f : Sreg) :
    (s.writeback d r f).dev = s.dev := rfl

/-- The frame of `writeback`, for flags that keep I and T. -/
theorem State.writeback_keepsRest (s : State) (d : RegNum) (r : Byte) (f : Sreg) (hi : f.i = s.sreg.i)
    (ht : f.t = s.sreg.t) : KeepsRest [d] s (s.writeback d r f) := by
  refine ⟨fun j hj => ?_, fun a => rfl, rfl, hi, ht, rfl⟩
  have hj' : d ≠ j := fun h => hj (by simp [h])
  simp [hj']

/-! ### The end of an instruction with a register pair -/

theorem pairHigh_ne (dl : RegNum) : pairHigh dl ≠ dl := by
  revert dl
  decide

theorem pairHigh_val (dl : RegNum) (h : isPairLow dl = true) : (pairHigh dl).val = dl.val + 1 := by
  revert dl
  decide

@[simp] theorem State.x_setPair (s : State) (dl : RegNum) (v : Word) (j : RegNum) :
    (s.setPair dl v).x j
      = if dl = j then v.extractLsb' 0 8 else if pairHigh dl = j then v.extractLsb' 8 8 else s.x j := by
  simp [State.setPair]

@[simp] theorem State.writebackPair_x (s : State) (dl : RegNum) (v : Word) (f : Sreg) (j : RegNum) :
    (s.writebackPair dl v f).x j
      = if dl = j then v.extractLsb' 0 8 else if pairHigh dl = j then v.extractLsb' 8 8 else s.x j := by
  simp [State.writebackPair]

@[simp] theorem State.writebackPair_sreg (s : State) (dl : RegNum) (v : Word) (f : Sreg) :
    (s.writebackPair dl v f).sreg = f := rfl

@[simp] theorem State.writebackPair_pc (s : State) (dl : RegNum) (v : Word) (f : Sreg) :
    (s.writebackPair dl v f).pc = (s.pc + 1) % 2 ^ s.dev.pcBits := rfl

@[simp] theorem State.writebackPair_flash (s : State) (dl : RegNum) (v : Word) (f : Sreg) :
    (s.writebackPair dl v f).flash = s.flash := rfl

@[simp] theorem State.writebackPair_dev (s : State) (dl : RegNum) (v : Word) (f : Sreg) :
    (s.writebackPair dl v f).dev = s.dev := rfl

/-- The frame of `writebackPair`, for flags that keep I and T. -/
theorem State.writebackPair_keepsRest (s : State) (dl : RegNum) (v : Word) (f : Sreg) (hi : f.i = s.sreg.i)
    (ht : f.t = s.sreg.t) : KeepsRest [dl, pairHigh dl] s (s.writebackPair dl v f) := by
  refine ⟨fun j hj => ?_, fun a => rfl, rfl, hi, ht, rfl⟩
  have h₁ : dl ≠ j := fun h => hj (by simp [h])
  have h₂ : pairHigh dl ≠ j := fun h => hj (by simp [h])
  simp [h₁, h₂]

/-! ### The fetch (20_memory.md rule R41) -/

theorem State.fetch_outside {s : State} (h : s.dev.flashWords ≤ s.pc) :
    s.fetch = .refused (.outOfScopeFetch s.pc) := by
  simp [State.fetch, h]

theorem State.fetch_word {s : State} {w : Word} (h : s.pc < s.dev.flashWords) (hw : s.progRead s.pc = .ok w) :
    s.fetch = .next w := by
  simp [State.fetch, Nat.not_le.2 h, hw]

/-- Everything `fetchInstr` can answer, with what it fetched. -/
theorem State.fetchInstr_cases (s : State) :
    (s.dev.flashWords ≤ s.pc ∧ s.fetchInstr = .refused (.outOfScopeFetch s.pc))
      ∨ (s.pc < s.dev.flashWords ∧ ∃ f, s.progRead s.pc = .error f ∧ s.fetchInstr = .fault f)
      ∨ (s.pc < s.dev.flashWords ∧ ∃ w, s.progRead s.pc = .ok w ∧ decode w = none
          ∧ s.fetchInstr = .refused (.outOfScopeWord w s.pc))
      ∨ (s.pc < s.dev.flashWords ∧ ∃ w i, s.progRead s.pc = .ok w ∧ decode w = some i ∧ s.fetchInstr = .next i) := by
  by_cases h : s.dev.flashWords ≤ s.pc
  · exact .inl ⟨h, by simp [State.fetchInstr, State.fetch_outside h]⟩
  · have h' : s.pc < s.dev.flashWords := Nat.not_le.1 h
    refine .inr ?_
    cases hw : s.progRead s.pc with
    | error f => exact .inl ⟨h', f, rfl, by simp [State.fetchInstr, State.fetch, h, hw]⟩
    | ok w =>
      cases hi : decode w with
      | none => exact .inr (.inl ⟨h', w, rfl, hi, by simp [State.fetchInstr, State.fetch_word h' hw, hi]⟩)
      | some i => exact .inr (.inr ⟨h', w, i, rfl, hi, by simp [State.fetchInstr, State.fetch_word h' hw, hi]⟩)

end Sys2Proof.Machine
end

