-- ==== Sys2Proof/Laws/Exec.lean ====
section
/-! SUPPORT. The meaning of each instruction as the one shared operation it ends in. -/

namespace Sys2Proof.Machine

theorem exec_and (d : RegNum) (r : RegNum) (s : State) :
    exec (.and d r) s = .next (s.writeback d (s.x d &&& s.x r) (s.sreg.putLogic (s.x d &&& s.x r))) := rfl

theorem exec_andi (d : RegNum) (k : Byte) (s : State) :
    exec (.andi d k) s = .next (s.writeback d (s.x d &&& k) (s.sreg.putLogic (s.x d &&& k))) := rfl

theorem exec_or (d : RegNum) (r : RegNum) (s : State) :
    exec (.or d r) s = .next (s.writeback d (s.x d ||| s.x r) (s.sreg.putLogic (s.x d ||| s.x r))) := rfl

theorem exec_ori (d : RegNum) (k : Byte) (s : State) :
    exec (.ori d k) s = .next (s.writeback d (s.x d ||| k) (s.sreg.putLogic (s.x d ||| k))) := rfl

theorem exec_eor (d : RegNum) (r : RegNum) (s : State) :
    exec (.eor d r) s = .next (s.writeback d (s.x d ^^^ s.x r) (s.sreg.putLogic (s.x d ^^^ s.x r))) := rfl

theorem exec_lsl (d : RegNum) (s : State) :
    exec (.lsl d) s = .next (s.writeback d ((s.x d).extractLsb' 0 7 ++ BitVec.ofBool false) (s.sreg.putShl (s.x d) ((s.x d).extractLsb' 0 7 ++ BitVec.ofBool false))) := rfl

theorem exec_lsr (d : RegNum) (s : State) :
    exec (.lsr d) s = .next (s.writeback d (BitVec.ofBool false ++ (s.x d).extractLsb' 1 7) (s.sreg.putShr (BitVec.ofBool false ++ (s.x d).extractLsb' 1 7) ((s.x d).getLsbD 0))) := rfl

theorem exec_rol (d : RegNum) (s : State) :
    exec (.rol d) s = .next (s.writeback d ((s.x d).extractLsb' 0 7 ++ BitVec.ofBool s.sreg.c) (s.sreg.putShl (s.x d) ((s.x d).extractLsb' 0 7 ++ BitVec.ofBool s.sreg.c))) := rfl

theorem exec_ror (d : RegNum) (s : State) :
    exec (.ror d) s = .next (s.writeback d (BitVec.ofBool s.sreg.c ++ (s.x d).extractLsb' 1 7) (s.sreg.putShr (BitVec.ofBool s.sreg.c ++ (s.x d).extractLsb' 1 7) ((s.x d).getLsbD 0))) := rfl

theorem exec_asr (d : RegNum) (s : State) :
    exec (.asr d) s = .next (s.writeback d (BitVec.ofBool ((s.x d).getLsbD 7) ++ (s.x d).extractLsb' 1 7) (s.sreg.putShr (BitVec.ofBool ((s.x d).getLsbD 7) ++ (s.x d).extractLsb' 1 7) ((s.x d).getLsbD 0))) := rfl

theorem exec_ser (d : RegNum) (s : State) :
    exec (.ser d) s = .next (s.writeback d 0xFF#8 s.sreg) := rfl

theorem exec_clr (d : RegNum) (s : State) :
    exec (.clr d) s = .next (s.writeback d 0x00#8 s.sreg.putClr) := rfl

theorem exec_inc (d : RegNum) (s : State) :
    exec (.inc d) s = .next (s.writeback d (s.x d + 1#8) (s.sreg.putIncDec (s.x d + 1#8) (s.x d + 1#8 == 0x80#8))) := rfl

theorem exec_dec (d : RegNum) (s : State) :
    exec (.dec d) s = .next (s.writeback d (s.x d - 1#8) (s.sreg.putIncDec (s.x d - 1#8) (s.x d - 1#8 == 0x7F#8))) := rfl

theorem exec_add (d : RegNum) (r : RegNum) (s : State) :
    exec (.add d r) s = .next (s.writeback d (add8 (s.x d) (s.x r) false).r (s.sreg.putAlu8 (add8 (s.x d) (s.x r) false))) := rfl

theorem exec_sub (d : RegNum) (r : RegNum) (s : State) :
    exec (.sub d r) s = .next (s.writeback d (sub8 (s.x d) (s.x r) false).r (s.sreg.putAlu8 (sub8 (s.x d) (s.x r) false))) := rfl

theorem exec_subi (d : RegNum) (k : Byte) (s : State) :
    exec (.subi d k) s = .next (s.writeback d (sub8 (s.x d) k false).r (s.sreg.putAlu8 (sub8 (s.x d) k false))) := rfl

theorem exec_adc (d : RegNum) (r : RegNum) (s : State) :
    exec (.adc d r) s = .next (s.writeback d (add8 (s.x d) (s.x r) s.sreg.c).r (s.sreg.putAlu8 (add8 (s.x d) (s.x r) s.sreg.c))) := rfl

theorem exec_sbc (d : RegNum) (r : RegNum) (s : State) :
    exec (.sbc d r) s = .next (s.writeback d (sub8Sticky (s.x d) (s.x r) s.sreg.c s.sreg.z).r (s.sreg.putAlu8 (sub8Sticky (s.x d) (s.x r) s.sreg.c s.sreg.z))) := rfl

theorem exec_sbci (d : RegNum) (k : Byte) (s : State) :
    exec (.sbci d k) s = .next (s.writeback d (sub8Sticky (s.x d) k s.sreg.c s.sreg.z).r (s.sreg.putAlu8 (sub8Sticky (s.x d) k s.sreg.c s.sreg.z))) := rfl

theorem exec_adiw (dl : RegNum) (k : BitVec 6) (s : State) :
    exec (.adiw dl k) s = .next (s.writebackPair dl (adiw16 (s.pair dl) k).r (s.sreg.putAlu16 (adiw16 (s.pair dl) k))) := rfl

theorem exec_sbiw (dl : RegNum) (k : BitVec 6) (s : State) :
    exec (.sbiw dl k) s = .next (s.writebackPair dl (sbiw16 (s.pair dl) k).r (s.sreg.putAlu16 (sbiw16 (s.pair dl) k))) := rfl

theorem exec_com (d : RegNum) (s : State) :
    exec (.com d) s = .next (s.writeback d (~~~ s.x d) (s.sreg.putCom (~~~ s.x d))) := rfl

theorem exec_neg (d : RegNum) (s : State) :
    exec (.neg d) s = .next (s.writeback d (BitVec.ofInt 8 (0 - ((s.x d).toNat : Int))) (s.sreg.putNeg (s.x d) (BitVec.ofInt 8 (0 - ((s.x d).toNat : Int))))) := rfl

end Sys2Proof.Machine
end

