-- ==== Sys2Proof/Laws/Memory.lean ====
section
/-! SUPPORT. Program memory: read after write, and that every operation keeps the canonical form. -/

namespace Sys2Proof.Machine

theorem Memory.read_nil (a : Nat) : Memory.read [] a = none := rfl

/-- Read after write: the written byte at its address, every other byte as before. -/
theorem Memory.read_write (m : Memory) (a b : Nat) (v : Byte) :
    Memory.read (Memory.write m a v) b = if b = a then some v else Memory.read m b := by
  induction m with
  | nil => by_cases h : b = a <;> simp [Memory.write, Memory.read, h]
  | cons cell m ih =>
    obtain ⟨k, w⟩ := cell
    by_cases h₁ : a < k
    · by_cases h : b = a <;> simp [Memory.write, Memory.read, h₁, h]
    · by_cases h₂ : a = k
      · subst h₂
        by_cases h : b = a <;> simp [Memory.write, Memory.read, h]
      · by_cases h₃ : b = k
        · subst h₃
          have h₄ : b ≠ a := fun h => h₂ h.symm
          simp [Memory.write, Memory.read, h₁, h₂, h₄]
        · simp [Memory.write, Memory.read, h₁, h₂, h₃, ih]

/-- A cell may stand before a memory in canonical form exactly when its address is below every listed one. -/
theorem Memory.wf_cons (cell : Host.Cell) (m : Memory) :
    Memory.wf (cell :: m) = true ↔ Memory.wf m = true ∧ ∀ c ∈ m, cell.1 < c.1 := by
  induction m generalizing cell with
  | nil => simp [Memory.wf]
  | cons d m ih =>
    simp only [Memory.wf, Bool.and_eq_true, decide_eq_true_eq, List.mem_cons, forall_eq_or_imp]
    constructor
    · rintro ⟨h, hd⟩
      exact ⟨hd, h, fun c hc => lt_trans h (((ih d).1 hd).2 c hc)⟩
    · rintro ⟨hd, h, _⟩
      exact ⟨h, hd⟩

/-- The cells after a write are the written one or were there before. -/
theorem Memory.mem_write {m : Memory} {a : Nat} {v : Byte} {c : Host.Cell} (h : c ∈ Memory.write m a v) :
    c = (a, v) ∨ c ∈ m := by
  induction m with
  | nil => simpa [Memory.write] using h
  | cons cell m ih =>
    obtain ⟨k, w⟩ := cell
    unfold Memory.write at h
    split at h
    · simpa using h
    · split at h
      · rcases List.mem_cons.1 h with h | h
        · exact .inl h
        · exact .inr (List.mem_cons_of_mem _ h)
      · rcases List.mem_cons.1 h with h | h
        · exact .inr (h ▸ List.mem_cons_self)
        · rcases ih h with h | h
          · exact .inl h
          · exact .inr (List.mem_cons_of_mem _ h)

/-- A write keeps the canonical form. -/
theorem Memory.wf_write (m : Memory) (a : Nat) (v : Byte) (hm : Memory.wf m = true) :
    Memory.wf (Memory.write m a v) = true := by
  induction m with
  | nil => rfl
  | cons cell m ih =>
    obtain ⟨k, w⟩ := cell
    obtain ⟨hm', hk⟩ := (Memory.wf_cons _ _).1 hm
    unfold Memory.write
    split
    · rename_i h
      refine (Memory.wf_cons _ _).2 ⟨hm, fun c hc => ?_⟩
      rcases List.mem_cons.1 hc with rfl | hc
      · exact h
      · exact lt_trans h (hk c hc)
    · split
      · rename_i h
        subst h
        exact (Memory.wf_cons _ _).2 ⟨hm', hk⟩
      · refine (Memory.wf_cons _ _).2 ⟨ih hm', fun c hc => ?_⟩
        rcases Memory.mem_write hc with rfl | hc
        · change k < a
          omega
        · exact hk c hc

/-- A write below the end keeps every listed byte below the end. -/
theorem Memory.within_write (m : Memory) (a : Nat) (v : Byte) (n : Nat) (hm : Memory.within m n = true)
    (ha : a < 2 * n) : Memory.within (Memory.write m a v) n = true := by
  simp only [Memory.within, List.all_eq_true, decide_eq_true_eq] at hm ⊢
  intro c hc
  rcases Memory.mem_write hc with rfl | hc
  · exact ha
  · exact hm c hc

/-- The host's load of a word keeps the canonical form. -/
theorem State.wf_progWrite (s : State) (a : Nat) (w : Word) (hm : Memory.wf s.flash = true) :
    Memory.wf (s.progWrite a w).flash = true := by
  unfold State.progWrite
  split
  · exact Memory.wf_write _ _ _ (Memory.wf_write _ _ _ hm)
  · exact hm

/-- The host's load of a word keeps every listed byte inside program memory. -/
theorem State.within_progWrite (s : State) (a : Nat) (w : Word)
    (hm : Memory.within s.flash s.dev.flashWords = true) :
    Memory.within (s.progWrite a w).flash s.dev.flashWords = true := by
  unfold State.progWrite
  split
  · exact Memory.within_write _ _ _ _ (Memory.within_write _ _ _ _ hm (by omega)) (by omega)
  · exact hm

@[simp] theorem State.progWrite_dev (s : State) (a : Nat) (w : Word) : (s.progWrite a w).dev = s.dev := by
  unfold State.progWrite
  split <;> rfl

@[simp] theorem State.progWrite_regs (s : State) (a : Nat) (w : Word) : (s.progWrite a w).regs = s.regs := by
  unfold State.progWrite
  split <;> rfl

@[simp] theorem State.progWrite_x (s : State) (a : Nat) (w : Word) (j : RegNum) : (s.progWrite a w).x j = s.x j := by
  simp [State.x]

@[simp] theorem State.progWrite_sreg (s : State) (a : Nat) (w : Word) : (s.progWrite a w).sreg = s.sreg := by
  unfold State.progWrite
  split <;> rfl

@[simp] theorem State.progWrite_pc (s : State) (a : Nat) (w : Word) : (s.progWrite a w).pc = s.pc := by
  unfold State.progWrite
  split <;> rfl

/-- What a byte reads as after the host's load of a word. -/
theorem State.readByte_progWrite (s : State) (a b : Nat) (w : Word) (ha : a < s.dev.flashWords) :
    (s.progWrite a w).readByte b
      = if b = 2 * a + 1 then some (highByte w) else if b = 2 * a then some (lowByte w) else s.readByte b := by
  simp [State.readByte, State.progWrite, ha, Memory.read_write]

/-- The two bytes of a word give it back. -/
@[simp] theorem wordOfBytes_lowByte_highByte (w : Word) : wordOfBytes (lowByte w) (highByte w) = w := by
  apply BitVec.eq_of_getLsbD_eq
  intro i hi
  simp only [wordOfBytes, lowByte, highByte, BitVec.getLsbD_append, BitVec.getLsbD_extractLsb']
  by_cases h : i < 8
  · simp [h]
  · simp [h, show i - 8 < 8 by omega, show 8 + (i - 8) = i by omega]

/-- Reading a word whose two bytes are listed. -/
theorem State.progRead_of_bytes {s : State} {a : Nat} {lo hi : Byte} (h₀ : s.readByte (2 * a) = some lo)
    (h₁ : s.readByte (2 * a + 1) = some hi) : s.progRead a = .ok (wordOfBytes lo hi) := by
  simp [State.progRead, h₀, h₁]

end Sys2Proof.Machine
end

