-- ==== Sys2Proof/Laws/PerInstr.lean ====
section
/-! SUPPORT. Families of statements made for each instruction. `CanonicalForm`: the instruction the decoder returns for a
word of this one has the same word and the same operand ranges (30_encoding.md rule R70). -/

namespace Sys2Proof.Laws.CanonicalForm

/-- The canonical form of `i` encodes to the same word, is well-formed when `i` is, and is its own canonical form. -/
def Statement (i : Instr) : Prop :=
  encodeWord i.canonical = encodeWord i ∧ i.canonical.wellFormed = i.wellFormed ∧ i.canonical.canonical = i.canonical

theorem and (d : RegNum) (r : RegNum) : Statement (.and d r) := ⟨rfl, rfl, rfl⟩
theorem andi (d : RegNum) (k : Byte) : Statement (.andi d k) := ⟨rfl, rfl, rfl⟩
theorem or (d : RegNum) (r : RegNum) : Statement (.or d r) := ⟨rfl, rfl, rfl⟩
theorem ori (d : RegNum) (k : Byte) : Statement (.ori d k) := ⟨rfl, rfl, rfl⟩
theorem eor (d : RegNum) (r : RegNum) : Statement (.eor d r) := ⟨rfl, rfl, rfl⟩
theorem lsl (d : RegNum) : Statement (.lsl d) := ⟨rfl, rfl, rfl⟩
theorem lsr (d : RegNum) : Statement (.lsr d) := ⟨rfl, rfl, rfl⟩
theorem rol (d : RegNum) : Statement (.rol d) := ⟨rfl, rfl, rfl⟩
theorem ror (d : RegNum) : Statement (.ror d) := ⟨rfl, rfl, rfl⟩
theorem asr (d : RegNum) : Statement (.asr d) := ⟨rfl, rfl, rfl⟩
theorem ser (d : RegNum) : Statement (.ser d) := ⟨rfl, rfl, rfl⟩
theorem clr (d : RegNum) : Statement (.clr d) := ⟨rfl, rfl, rfl⟩
theorem inc (d : RegNum) : Statement (.inc d) := ⟨rfl, rfl, rfl⟩
theorem dec (d : RegNum) : Statement (.dec d) := ⟨rfl, rfl, rfl⟩
theorem add (d : RegNum) (r : RegNum) : Statement (.add d r) := ⟨rfl, rfl, rfl⟩
theorem sub (d : RegNum) (r : RegNum) : Statement (.sub d r) := ⟨rfl, rfl, rfl⟩
theorem subi (d : RegNum) (k : Byte) : Statement (.subi d k) := ⟨rfl, rfl, rfl⟩
theorem adc (d : RegNum) (r : RegNum) : Statement (.adc d r) := ⟨rfl, rfl, rfl⟩
theorem sbc (d : RegNum) (r : RegNum) : Statement (.sbc d r) := ⟨rfl, rfl, rfl⟩
theorem sbci (d : RegNum) (k : Byte) : Statement (.sbci d k) := ⟨rfl, rfl, rfl⟩
theorem adiw (dl : RegNum) (k : BitVec 6) : Statement (.adiw dl k) := ⟨rfl, rfl, rfl⟩
theorem sbiw (dl : RegNum) (k : BitVec 6) : Statement (.sbiw dl k) := ⟨rfl, rfl, rfl⟩
theorem com (d : RegNum) : Statement (.com d) := ⟨rfl, rfl, rfl⟩
theorem neg (d : RegNum) : Statement (.neg d) := ⟨rfl, rfl, rfl⟩

end Sys2Proof.Laws.CanonicalForm
end

