-- ==== Sys2Proof/Laws/Run.lean ====
section
/-! SUPPORT. Runs of the machine, one step at a time, and that `runSteps` is the host's run. -/

namespace Sys2Proof.Machine

theorem runSteps_zero (s : State) : runSteps 0 s = .next s := rfl

theorem runSteps_of_next {s t : State} (n : Nat) (h : step s = .next t) : runSteps (n + 1) s = runSteps n t := by
  rw [runSteps, h]

theorem runSteps_of_fault {s : State} {f : Fault} (n : Nat) (h : step s = .fault f) :
    runSteps (n + 1) s = .fault f := by
  rw [runSteps, h]

theorem runSteps_of_refused {s : State} {r : Refusal} (n : Nat) (h : step s = .refused r) :
    runSteps (n + 1) s = .refused r := by
  rw [runSteps, h]

/-- A run of one step more that goes through: its first step went through. -/
theorem runSteps_next_cases {n : Nat} {s t : State} (h : runSteps (n + 1) s = .next t) :
    ∃ u, step s = .next u ∧ runSteps n u = .next t := by
  cases hu : step s with
  | next u => exact ⟨u, rfl, by rwa [runSteps_of_next n hu] at h⟩
  | fault f => rw [runSteps_of_fault n hu] at h; cases h
  | refused r => rw [runSteps_of_refused n hu] at h; cases h

theorem host_run_of_next (M : Host.Core) (n : Nat) {s t : M.State} (h : M.step s = .next t) :
    M.run (n + 1) s = M.run n t := by
  rw [Host.Core.run, h]

theorem host_run_of_fault (M : Host.Core) (n : Nat) {s : M.State} {f : M.Fault} (h : M.step s = .fault f) :
    M.run (n + 1) s = .fault f := by
  rw [Host.Core.run, h]

theorem host_run_of_refused (M : Host.Core) (n : Nat) {s : M.State} {r : M.Refusal} (h : M.step s = .refused r) :
    M.run (n + 1) s = .refused r := by
  rw [Host.Core.run, h]

/-- The host's run of this machine is `runSteps`. -/
theorem core_run_eq_runSteps (n : Nat) (s : State) : Sys2Proof.core.run n s = runSteps n s := by
  induction n generalizing s with
  | zero => rfl
  | succ n ih =>
    cases h : step s with
    | next t => exact (host_run_of_next Sys2Proof.core n h).trans ((ih t).trans (runSteps_of_next n h).symm)
    | fault f => exact (host_run_of_fault Sys2Proof.core n h).trans (runSteps_of_fault n h).symm
    | refused r => exact (host_run_of_refused Sys2Proof.core n h).trans (runSteps_of_refused n h).symm

end Sys2Proof.Machine
end

