-- ==== Sys2Proof/Tests/Slice0.lean ====
section
/-! SUPPORT. Small tests. Words and expected results are those of 95_test_vectors.md (sections 2.1 to 2.8, 3), which the
spec computed from its rules; flags are written in the order I T H S V N Z C. The `witness` theorems show a concrete state
and operands that meet the hypotheses of the statements in Certificates/Slice0/Obligations.lean. -/

namespace Sys2Proof.Tests

open Sys2Proof Sys2Proof.Machine

/-! ### Helpers -/

/-- The state after reset with these registers and these flags. -/
def stateWith (regs : List (RegNum × Byte)) (flags : Byte) : State :=
  regs.foldl (fun s p => s.setX p.1 p.2) (State.reset.setSreg (Sreg.ofByte flags))

/-- A register and the flags of a next state. -/
def after (out : Result) (d : RegNum) : Option (Byte × Byte) :=
  match out with
  | .next t => some (t.x d, t.sreg.toByte)
  | .fault _ => none
  | .refused _ => none

/-- The pair and the flags of a next state. -/
def afterPair (out : Result) (dl : RegNum) : Option (Word × Byte) :=
  match out with
  | .next t => some (t.pair dl, t.sreg.toByte)
  | .fault _ => none
  | .refused _ => none

/-- The counter of a next state. -/
def pcAfter (out : Result) : Option Nat :=
  match out with
  | .next t => some t.pc
  | .fault _ => none
  | .refused _ => none

/-- The reason of a refusal. -/
def refusal (out : Result) : Option Refusal :=
  match out with
  | .refused r => some r
  | .next _ => none
  | .fault _ => none

/-- The reason of a fault. -/
def faultOf (out : Result) : Option Fault :=
  match out with
  | .fault f => some f
  | .next _ => none
  | .refused _ => none

/-! ### WellFormed: an ill-formed term for each check (10_state.md rule R21) -/

theorem test_wellFormed_refuses_andi : Instr.wellFormed (.andi 15 0xFF#8) = false ∧ encode (.andi 15 0xFF#8) = none := by decide
theorem test_wellFormed_refuses_ori : Instr.wellFormed (.ori 0 0x01#8) = false ∧ encode (.ori 0 0x01#8) = none := by decide
theorem test_wellFormed_refuses_subi : Instr.wellFormed (.subi 15 0x01#8) = false ∧ encode (.subi 15 0x01#8) = none := by decide
theorem test_wellFormed_refuses_sbci : Instr.wellFormed (.sbci 7 0x00#8) = false ∧ encode (.sbci 7 0x00#8) = none := by decide
theorem test_wellFormed_refuses_ser : Instr.wellFormed (.ser 15) = false ∧ encode (.ser 15) = none := by decide
theorem test_wellFormed_refuses_adiw : Instr.wellFormed (.adiw 25 1#6) = false ∧ encode (.adiw 25 1#6) = none := by decide
theorem test_wellFormed_refuses_sbiw : Instr.wellFormed (.sbiw 22 1#6) = false ∧ encode (.sbiw 22 1#6) = none := by decide

theorem test_wellFormed_accepts_bounds :
    Instr.wellFormed (.andi 16 0x00#8) = true ∧ Instr.wellFormed (.ser 31) = true
      ∧ Instr.wellFormed (.adiw 24 0#6) = true ∧ Instr.wellFormed (.sbiw 30 63#6) = true := by decide

/-! ### Decoding words written bit by bit (section 2.1) -/

/-- `AND R0, R31` -/
theorem test_decode_and_low_high : decode 0b0010001000001111#16 = some (.and 0 31) ∧ encode (.and 0 31) = some 0b0010001000001111#16 := by decide
/-- `AND R31, R0` -/
theorem test_decode_and_high_low : decode 0b0010000111110000#16 = some (.and 31 0) ∧ encode (.and 31 0) = some 0b0010000111110000#16 := by decide
/-- `OR R10, R21` -/
theorem test_decode_or : decode 0b0010101010100101#16 = some (.or 10 21) ∧ encode (.or 10 21) = some 0b0010101010100101#16 := by decide
/-- `EOR R21, R10` -/
theorem test_decode_eor : decode 0b0010010101011010#16 = some (.eor 21 10) ∧ encode (.eor 21 10) = some 0b0010010101011010#16 := by decide
/-- `ADD R1, R2` -/
theorem test_decode_add : decode 0b0000110000010010#16 = some (.add 1 2) ∧ encode (.add 1 2) = some 0b0000110000010010#16 := by decide
/-- `ADC R30, R1` -/
theorem test_decode_adc : decode 0b0001110111100001#16 = some (.adc 30 1) ∧ encode (.adc 30 1) = some 0b0001110111100001#16 := by decide
/-- `SUB R17, R18` -/
theorem test_decode_sub : decode 0b0001101100010010#16 = some (.sub 17 18) ∧ encode (.sub 17 18) = some 0b0001101100010010#16 := by decide
/-- `SBC R31, R31` -/
theorem test_decode_sbc : decode 0b0000101111111111#16 = some (.sbc 31 31) ∧ encode (.sbc 31 31) = some 0b0000101111111111#16 := by decide
/-- `ANDI R16, 0xF0` -/
theorem test_decode_andi : decode 0b0111111100000000#16 = some (.andi 16 0xF0#8) ∧ encode (.andi 16 0xF0#8) = some 0b0111111100000000#16 := by decide
/-- `ORI R25, 0x81` -/
theorem test_decode_ori : decode 0b0110100010010001#16 = some (.ori 25 0x81#8) ∧ encode (.ori 25 0x81#8) = some 0b0110100010010001#16 := by decide
/-- `SUBI R17, 0xA5` -/
theorem test_decode_subi : decode 0b0101101000010101#16 = some (.subi 17 0xA5#8) ∧ encode (.subi 17 0xA5#8) = some 0b0101101000010101#16 := by decide
/-- `SBCI R30, 0x5A` -/
theorem test_decode_sbci : decode 0b0100010111101010#16 = some (.sbci 30 0x5A#8) ∧ encode (.sbci 30 0x5A#8) = some 0b0100010111101010#16 := by decide
/-- `SER R31` -/
theorem test_decode_ser : decode 0b1110111111111111#16 = some (.ser 31) ∧ encode (.ser 31) = some 0b1110111111111111#16 := by decide
/-- `COM R16` -/
theorem test_decode_com : decode 0b1001010100000000#16 = some (.com 16) ∧ encode (.com 16) = some 0b1001010100000000#16 := by decide
/-- `NEG R31` -/
theorem test_decode_neg : decode 0b1001010111110001#16 = some (.neg 31) ∧ encode (.neg 31) = some 0b1001010111110001#16 := by decide
/-- `INC R0` -/
theorem test_decode_inc : decode 0b1001010000000011#16 = some (.inc 0) ∧ encode (.inc 0) = some 0b1001010000000011#16 := by decide
/-- `DEC R31` -/
theorem test_decode_dec : decode 0b1001010111111010#16 = some (.dec 31) ∧ encode (.dec 31) = some 0b1001010111111010#16 := by decide
/-- `ASR R1` -/
theorem test_decode_asr : decode 0b1001010000010101#16 = some (.asr 1) ∧ encode (.asr 1) = some 0b1001010000010101#16 := by decide
/-- `LSR R30` -/
theorem test_decode_lsr : decode 0b1001010111100110#16 = some (.lsr 30) ∧ encode (.lsr 30) = some 0b1001010111100110#16 := by decide
/-- `ROR R15` -/
theorem test_decode_ror : decode 0b1001010011110111#16 = some (.ror 15) ∧ encode (.ror 15) = some 0b1001010011110111#16 := by decide
/-- `ADIW R26, 16` -/
theorem test_decode_adiw : decode 0b1001011001010000#16 = some (.adiw 26 16#6) ∧ encode (.adiw 26 16#6) = some 0b1001011001010000#16 := by decide
/-- `SBIW R28, 15` -/
theorem test_decode_sbiw : decode 0b1001011100101111#16 = some (.sbiw 28 15#6) ∧ encode (.sbiw 28 15#6) = some 0b1001011100101111#16 := by decide
/-- `LSL R31` -/
theorem test_decode_lsl : decode 0b0000111111111111#16 = some (.add 31 31) ∧ encode (.lsl 31) = some 0b0000111111111111#16 := by decide
/-- `ROL R16` -/
theorem test_decode_rol : decode 0b0001111100000000#16 = some (.adc 16 16) ∧ encode (.rol 16) = some 0b0001111100000000#16 := by decide
/-- `CLR R15` -/
theorem test_decode_clr : decode 0b0010010011111111#16 = some (.eor 15 15) ∧ encode (.clr 15) = some 0b0010010011111111#16 := by decide

/-- Words of section 2.1 that no row covers. -/
theorem test_decode_refuses :
    decode 0x0000#16 = none ∧ decode 0x07FF#16 = none ∧ decode 0x1000#16 = none ∧ decode 0x2C00#16 = none
      ∧ decode 0x8000#16 = none ∧ decode 0x9200#16 = none ∧ decode 0x9402#16 = none ∧ decode 0x9508#16 = none
      ∧ decode 0xE000#16 = none ∧ decode 0xEF0E#16 = none ∧ decode 0xEE0F#16 = none ∧ decode 0xFFFF#16 = none := by
  decide

/-- The masked comparison of SER against the ANDI row beside it, and the table interface. -/
theorem test_decodeTableWord :
    decodeTableWord 16 0xEF0F = some (.ser 16) ∧ decodeTableWord 16 0x0C00 = some (.add 0 0)
      ∧ decodeTableWord 16 0x0000 = none := by decide

/-- A byte image is read low byte first (20_memory.md rule R42); what is too short is refused by name. -/
theorem test_decodeBytes :
    decodeBytes [0x0F#8, 0xEF#8, 0x00#8] = .ok (.ser 16, [0x00#8])
      ∧ decodeBytes [0x00#8, 0x00#8] = .error (.outsideTable 0x0000#16)
      ∧ decodeBytes [0x0F#8] = .error .truncated ∧ decodeBytes [] = .error .truncated := by
  refine ⟨rfl, rfl, rfl, rfl⟩

/-- A word's fetch runs as the first instruction after reset. -/
theorem test_withFetchWord : after (step (State.reset.withFetchWord 16 0xEF0F)) 16 = some (0xFF#8, 0x00#8) := by decide

/-! ### One step of each instruction (sections 2.2 to 2.8) -/

theorem test_and_1 :
    after (exec (.and 16 17) (stateWith [(16, 0xCC#8), (17, 0xAA#8)] 0b00000000#8)) 16 = some (0x88#8, 0b00010100#8) := by decide
theorem test_and_2 :
    after (exec (.and 5 5) (stateWith [(5, 0x5A#8)] 0b01100001#8)) 5 = some (0x5A#8, 0b01100001#8) := by decide
theorem test_andi_1 :
    after (exec (.andi 16 0xFF#8) (stateWith [(16, 0x80#8)] 0b00000001#8)) 16 = some (0x80#8, 0b00010101#8) := by decide
theorem test_andi_2 :
    after (exec (.andi 20 0x80#8) (stateWith [(20, 0x7F#8)] 0b00011000#8)) 20 = some (0x00#8, 0b00000010#8) := by decide
theorem test_or_1 :
    after (exec (.or 2 3) (stateWith [(2, 0x80#8), (3, 0x01#8)] 0b00000000#8)) 2 = some (0x81#8, 0b00010100#8) := by decide
theorem test_or_2 :
    after (exec (.or 7 7) (stateWith [(7, 0x00#8)] 0b00100001#8)) 7 = some (0x00#8, 0b00100011#8) := by decide
theorem test_ori_1 :
    after (exec (.ori 20 0x80#8) (stateWith [(20, 0x01#8)] 0b00000000#8)) 20 = some (0x81#8, 0b00010100#8) := by decide
theorem test_ori_2 :
    after (exec (.ori 16 0x00#8) (stateWith [(16, 0x00#8)] 0b00001100#8)) 16 = some (0x00#8, 0b00000010#8) := by decide
theorem test_eor_1 :
    after (exec (.eor 16 17) (stateWith [(16, 0x0F#8), (17, 0xFF#8)] 0b00000001#8)) 16 = some (0xF0#8, 0b00010101#8) := by decide
theorem test_eor_2 :
    after (exec (.eor 16 17) (stateWith [(16, 0xCC#8), (17, 0xAA#8)] 0b00000000#8)) 16 = some (0x66#8, 0b00000000#8) := by decide
theorem test_lsl_1 :
    after (exec (.lsl 5) (stateWith [(5, 0x88#8)] 0b00000000#8)) 5 = some (0x10#8, 0b00111001#8) := by decide
theorem test_lsl_2 :
    after (exec (.lsl 5) (stateWith [(5, 0x01#8)] 0b00100001#8)) 5 = some (0x02#8, 0b00000000#8) := by decide
theorem test_lsr_1 :
    after (exec (.lsr 5) (stateWith [(5, 0x01#8)] 0b00000000#8)) 5 = some (0x00#8, 0b00011011#8) := by decide
theorem test_lsr_2 :
    after (exec (.lsr 5) (stateWith [(5, 0x80#8)] 0b00100101#8)) 5 = some (0x40#8, 0b00100000#8) := by decide
theorem test_rol_1 :
    after (exec (.rol 17) (stateWith [(17, 0x7F#8)] 0b00000001#8)) 17 = some (0xFF#8, 0b00101100#8) := by decide
theorem test_rol_2 :
    after (exec (.rol 17) (stateWith [(17, 0x80#8)] 0b00000000#8)) 17 = some (0x00#8, 0b00011011#8) := by decide
theorem test_ror_1 :
    after (exec (.ror 17) (stateWith [(17, 0x01#8)] 0b00000001#8)) 17 = some (0x80#8, 0b00010101#8) := by decide
theorem test_ror_2 :
    after (exec (.ror 17) (stateWith [(17, 0x00#8)] 0b00000001#8)) 17 = some (0x80#8, 0b00001100#8) := by decide
theorem test_asr_1 :
    after (exec (.asr 31) (stateWith [(31, 0x81#8)] 0b00000000#8)) 31 = some (0xC0#8, 0b00010101#8) := by decide
theorem test_asr_2 :
    after (exec (.asr 31) (stateWith [(31, 0xFE#8)] 0b00000000#8)) 31 = some (0xFF#8, 0b00001100#8) := by decide
theorem test_ser_1 :
    after (exec (.ser 31) (stateWith [(31, 0x00#8)] 0b01111111#8)) 31 = some (0xFF#8, 0b01111111#8) := by decide
theorem test_clr_1 :
    after (exec (.clr 16) (stateWith [(16, 0xFF#8)] 0b01111101#8)) 16 = some (0x00#8, 0b01100011#8) := by decide
theorem test_inc_1 :
    after (exec (.inc 10) (stateWith [(10, 0xFF#8)] 0b00100001#8)) 10 = some (0x00#8, 0b00100011#8) := by decide
theorem test_inc_2 :
    after (exec (.inc 10) (stateWith [(10, 0x7F#8)] 0b00000001#8)) 10 = some (0x80#8, 0b00001101#8) := by decide
theorem test_dec_1 :
    after (exec (.dec 10) (stateWith [(10, 0x00#8)] 0b00100001#8)) 10 = some (0xFF#8, 0b00110101#8) := by decide
theorem test_dec_2 :
    after (exec (.dec 10) (stateWith [(10, 0x80#8)] 0b00000000#8)) 10 = some (0x7F#8, 0b00011000#8) := by decide
theorem test_add_1 :
    after (exec (.add 16 17) (stateWith [(16, 0xFF#8), (17, 0x01#8)] 0b00000000#8)) 16 = some (0x00#8, 0b00100011#8) := by decide
theorem test_add_2 :
    after (exec (.add 16 17) (stateWith [(16, 0x01#8), (17, 0x02#8)] 0b00000001#8)) 16 = some (0x03#8, 0b00000000#8) := by decide
theorem test_sub_1 :
    after (exec (.sub 16 17) (stateWith [(16, 0x7F#8), (17, 0xFF#8)] 0b00000000#8)) 16 = some (0x80#8, 0b00001101#8) := by decide
theorem test_sub_2 :
    after (exec (.sub 16 17) (stateWith [(16, 0x05#8), (17, 0x03#8)] 0b00000001#8)) 16 = some (0x02#8, 0b00000000#8) := by decide
theorem test_subi_1 :
    after (exec (.subi 16 0xFF#8) (stateWith [(16, 0x00#8)] 0b00000000#8)) 16 = some (0x01#8, 0b00100001#8) := by decide
theorem test_subi_2 :
    after (exec (.subi 16 0x01#8) (stateWith [(16, 0x80#8)] 0b00000000#8)) 16 = some (0x7F#8, 0b00111000#8) := by decide
theorem test_adc_1 :
    after (exec (.adc 1 2) (stateWith [(1, 0x80#8), (2, 0x7F#8)] 0b00000001#8)) 1 = some (0x00#8, 0b00100011#8) := by decide
theorem test_adc_2 :
    after (exec (.adc 1 2) (stateWith [(1, 0x80#8), (2, 0x7F#8)] 0b00000000#8)) 1 = some (0xFF#8, 0b00010100#8) := by decide
theorem test_sbc_1 :
    after (exec (.sbc 3 4) (stateWith [(3, 0x01#8), (4, 0x00#8)] 0b00000011#8)) 3 = some (0x00#8, 0b00000010#8) := by decide
theorem test_sbc_2 :
    after (exec (.sbc 3 4) (stateWith [(3, 0x01#8), (4, 0x00#8)] 0b00000001#8)) 3 = some (0x00#8, 0b00000000#8) := by decide
theorem test_sbci_1 :
    after (exec (.sbci 16 0x7F#8) (stateWith [(16, 0x80#8)] 0b00000001#8)) 16 = some (0x00#8, 0b00111000#8) := by decide
theorem test_sbci_2 :
    after (exec (.sbci 16 0x55#8) (stateWith [(16, 0x55#8)] 0b00000010#8)) 16 = some (0x00#8, 0b00000010#8) := by decide
theorem test_com_1 :
    after (exec (.com 16) (stateWith [(16, 0xFF#8)] 0b00000000#8)) 16 = some (0x00#8, 0b00000011#8) := by decide
theorem test_com_2 :
    after (exec (.com 0) (stateWith [(0, 0xAA#8)] 0b00101000#8)) 0 = some (0x55#8, 0b00100001#8) := by decide
theorem test_neg_1 :
    after (exec (.neg 16) (stateWith [(16, 0x80#8)] 0b00000000#8)) 16 = some (0x80#8, 0b00001101#8) := by decide
theorem test_neg_2 :
    after (exec (.neg 16) (stateWith [(16, 0x08#8)] 0b00000000#8)) 16 = some (0xF8#8, 0b00110101#8) := by decide
theorem test_adiw_1 :
    afterPair (exec (.adiw 24 1#6) (stateWith [(25, 0x00#8), (24, 0xFF#8)] 0b01100001#8)) 24 = some (0x0100#16, 0b01100000#8) := by decide
theorem test_adiw_2 :
    afterPair (exec (.adiw 28 63#6) (stateWith [(29, 0x7F#8), (28, 0xC1#8)] 0b00000000#8)) 28 = some (0x8000#16, 0b00001100#8) := by decide
theorem test_sbiw_1 :
    afterPair (exec (.sbiw 26 1#6) (stateWith [(27, 0x01#8), (26, 0x00#8)] 0b00100011#8)) 26 = some (0x00FF#16, 0b00100000#8) := by decide
theorem test_sbiw_2 :
    afterPair (exec (.sbiw 24 63#6) (stateWith [(25, 0x80#8), (24, 0x3E#8)] 0b00000000#8)) 24 = some (0x7FFF#16, 0b00011000#8) := by decide

/-! ### The step (section 3: P7, P8) and launches -/

/-- P8: the last word of program memory. -/
def lastWord : State := { State.reset.progWrite 8191 0xEF0F#16 with pc := 8191 }

theorem test_step_at_last_word :
    pcAfter (step lastWord) = some 8192 ∧ after (step lastWord) 16 = some (0xFF#8, 0x00#8) := by decide

/-- P8: one step more is refused with the counter. -/
theorem test_step_beyond_end :
    refusal (step { lastWord with pc := 8192 }) = some (.outOfScopeFetch 8192) := by decide

/-- P7: a word that is none of the 24. -/
theorem test_step_outside_table :
    refusal (step (State.reset.progWrite 0 0x0000#16)) = some (.outOfScopeWord 0x0000#16 0) := by decide

/-- Nothing was supplied (log 4): neither byte, or only the low one. -/
theorem test_step_unprogrammed :
    faultOf (step State.reset) = some (.unprogrammed 0)
      ∧ faultOf (step { State.reset with flash := [(0, 0x0F#8)] }) = some (.unprogrammed 1) := by decide

/-- 60_exceptions.md rule R203. -/
theorem test_launch_with_interrupts :
    refusal (launch 1 ((State.reset.progWrite 0 0xEF0F#16).setSreg (Sreg.ofByte 0x80#8)))
      = some .launchWithInterruptsEnabled := by decide

/-- A write below, at and above a listed byte keeps the canonical form and the one value. -/
theorem test_memory_write_canonical :
    Memory.write (Memory.write (Memory.write [(5, 0x55#8)] 3 0x33#8) 9 0x99#8) 5 0x00#8
      = [(3, 0x33#8), (5, 0x00#8), (9, 0x99#8)] := by decide

theorem test_cycles : cyclesOf [.add 0 1, .adiw 24 1#6, .sbiw 30 2#6, .ser 16] = 6 := by decide

/-! ### Witnesses: what meets the hypotheses of the statements -/

/-- Two instructions, `SER R16` and `COM R16`, at the last two words, and the counter at the first of them. -/
def twoWords : State := { State.reset.progLoad 8190 [0xEF0F#16, 0x9500#16] with pc := 8190 }

theorem test_witness_InvariantHoldsAfterReset :
    Device.wf ⟨1, 1, 0⟩ = true ∧ Device.wf ⟨16, 65535, 65534⟩ = true ∧ Device.wf ⟨16, 65536, 0⟩ = false
      ∧ Memory.wf [(0, 0x0F#8), (1, 0xEF#8)] = true ∧ Memory.within [(0, 0x0F#8), (1, 0xEF#8)] 1 = true := by decide

theorem test_witness_RegistersAndPairsReadWhatWasWritten :
    isPairLow 24 = true ∧ (25 : RegNum).val = (24 : RegNum).val + 1 ∧ isPairLow 26 = true ∧ isPairLow 28 = true
      ∧ isPairLow 30 = true ∧ (31 : RegNum).val = (30 : RegNum).val + 1 ∧ isPairLow 31 = false := by
  decide

/-- The choice of log 23: a launch past its end takes no step and is no safe run. -/
theorem test_launch_past_end :
    pcAfter (launch 8190 lastWord) = some 8191 ∧ lastWord.isFinal 8190 = false := by decide

theorem test_witness_LoadedProgramIsWhatTheFetchReads :
    8190 + [0xEF0F#16, 0x9500#16].length ≤ State.reset.dev.flashWords ∧ [0xEF0F#16, 0x9500#16][1]? = some 0x9500#16
      ∧ State.reset.inv = true ∧ 2 * 8190 - 1 < 2 * 8190 ∧ 2 * (8190 + 2) ≤ 16384 := by decide

theorem test_witness_OpcodeTableDecidesTheDecoder :
    (⟨"ADD", 0xFC00#16, 0x0C00#16, false⟩ : OpcodeRow) ∈ opcodeRows
      ∧ OpcodeRow.covers ⟨"ADD", 0xFC00#16, 0x0C00#16, false⟩ 0x0C12#16 = true
      ∧ OpcodeRow.covers ⟨"LSL", 0xFC00#16, 0x0C00#16, true⟩ 0x0C12#16 = false
      ∧ OpcodeRow.covers ⟨"LSL", 0xFC00#16, 0x0C00#16, true⟩ 0x0C55#16 = true
      ∧ ∀ row ∈ opcodeRows, row.covers 0x0000#16 = false := by decide

theorem test_witness_DecodeReturnsWhatWasEncoded :
    Instr.wellFormed (.subi 31 0xFF#8) = true ∧ Instr.wellFormed (.lsl 0) = true := by decide

theorem test_witness_EncodeReturnsTheDecodedWord : decode 0x0833#16 = some (.sbc 3 3) := by decide

theorem test_witness_StepFetchesDecodesAndExecutes :
    ({ lastWord with pc := 8192 } : State).dev.flashWords ≤ ({ lastWord with pc := 8192 } : State).pc
      ∧ lastWord.pc < lastWord.dev.flashWords ∧ lastWord.progRead lastWord.pc = .ok 0xEF0F#16
      ∧ decode 0xEF0F#16 = some (.ser 16)
      ∧ (State.reset.progWrite 0 0x0000#16).progRead 0 = .ok 0x0000#16 ∧ decode 0x0000#16 = none :=
  ⟨by decide, by decide, rfl, by decide, rfl, by decide⟩

theorem test_witness_StepRunsTheInstructionAtTheCounter :
    lastWord.pc < lastWord.dev.flashWords ∧ encode (.ser 16) = some 0xEF0F#16
      ∧ lastWord.readByte (2 * lastWord.pc) = some (lowByte 0xEF0F#16)
      ∧ lastWord.readByte (2 * lastWord.pc + 1) = some (highByte 0xEF0F#16) := by decide

theorem test_witness_StepStopsForNoOtherReason :
    step { lastWord with pc := 8192 } = .refused (.outOfScopeFetch 8192)
      ∧ step (State.reset.progWrite 0 0x0000#16) = .refused (.outOfScopeWord 0x0000#16 0)
      ∧ step State.reset = .fault (.unprogrammed 0) := ⟨rfl, rfl, rfl⟩

theorem test_witness_EveryStepKeepsTheInvariant : lastWord.inv = true ∧ ∃ t, step lastWord = .next t :=
  ⟨by decide, _, rfl⟩

theorem test_witness_runs : twoWords.inv = true ∧ NoInterrupts twoWords ∧ ∃ t, runSteps 2 twoWords = .next t :=
  ⟨by decide, rfl, _, rfl⟩

theorem test_witness_RunToEndPcIsExact :
    twoWords.inv = true ∧ NoInterrupts twoWords ∧ twoWords.pc ≤ 8192 ∧ 8192 ≤ twoWords.dev.flashWords
      ∧ (∃ t, launch 8192 twoWords = .next t)
      ∧ ∀ a, twoWords.pc ≤ a → a < 8192 → ∃ w i, twoWords.progRead a = .ok w ∧ decode w = some i := by
  refine ⟨by decide, rfl, by decide, by decide, ⟨_, rfl⟩, fun a h₀ h₁ => ?_⟩
  have hpc : twoWords.pc = 8190 := rfl
  have ha : a = 8190 ∨ a = 8191 := by omega
  rcases ha with rfl | rfl
  · exact ⟨0xEF0F#16, .ser 16, rfl, by decide⟩
  · exact ⟨0x9500#16, .com 16, rfl, by decide⟩

theorem test_witness_LaunchRefusesInterruptsEnabled :
    (State.reset.setSreg (Sreg.ofByte 0x80#8)).sreg.i = true ∧ State.reset.sreg.i = false ∧ State.reset.pc = 0 := by
  decide

theorem test_witness_FlagMatrixIsObeyed :
    (∃ t, exec (.com 16) State.reset = .next t) ∧ (flagRow (.com 16)).cell .h = .kept
      ∧ (flagRow (.com 16)).cell .v = .zero ∧ (flagRow (.com 16)).cell .c = .one :=
  ⟨⟨_, rfl⟩, rfl, rfl, rfl⟩

/-- Two states that differ in C, Z, the counter and program memory, for an instruction that reads neither flag. -/
theorem test_witness_ResultsDependOnlyOnRegistersCarryAndZero :
    (∀ j, State.reset.x j = (twoWords.setSreg (Sreg.ofByte 0x03#8)).x j) ∧ readsC (.add 0 1) = false
      ∧ readsZ (.add 0 1) = false ∧ (∃ t, exec (.add 0 1) State.reset = .next t)
      ∧ (∃ t, exec (.add 0 1) (twoWords.setSreg (Sreg.ofByte 0x03#8)) = .next t)
      ∧ (flagRow (.add 0 1)).cell .z ≠ .kept :=
  ⟨by decide, rfl, rfl, ⟨_, rfl⟩, ⟨_, rfl⟩, by decide⟩

/-- For an instruction that reads C and Z: two states with the same C and Z. -/
theorem test_witness_ResultsDependOnCarryAndZero :
    readsC (.sbc 0 1) = true ∧ readsZ (.sbc 0 1) = true ∧ (∀ j, State.reset.x j = twoWords.x j)
      ∧ State.reset.sreg.c = twoWords.sreg.c ∧ State.reset.sreg.z = twoWords.sreg.z
      ∧ (∃ t, exec (.sbc 0 1) State.reset = .next t) ∧ ∃ t, exec (.sbc 0 1) twoWords = .next t :=
  ⟨rfl, rfl, by decide, rfl, rfl, ⟨_, rfl⟩, ⟨_, rfl⟩⟩

/-- The destinations a four-bit field names, at both ends, and one it does not (ANDI, ORI, SUBI, SBCI, SER). -/
theorem test_witness_upper_registers :
    16 ≤ (16 : RegNum).val ∧ (16 : RegNum).val = 16 + (0#4).toNat ∧ (31 : RegNum).val = 16 + (15#4).toNat
      ∧ (15 : RegNum).val < 16 := by decide

/-- ADIW, SBIW: the first and the last pair, and a register that is none. -/
theorem test_witness_AdiwSbiw :
    isPairLow 24 = true ∧ (25 : RegNum).val = (24 : RegNum).val + 1
      ∧ 0x00FF#16 = (stateWith [(24, 0xFF#8)] 0x00#8).x 25 ++ (stateWith [(24, 0xFF#8)] 0x00#8).x 24
      ∧ isPairLow 30 = true ∧ (31 : RegNum).val = (30 : RegNum).val + 1
      ∧ (24 : RegNum).val = 24 + 2 * (0#2).toNat ∧ (30 : RegNum).val = 24 + 2 * (3#2).toNat
      ∧ (25 : RegNum) ≠ 24 ∧ (25 : RegNum) ≠ 26 ∧ (25 : RegNum) ≠ 28 ∧ (25 : RegNum) ≠ 30 := by decide

/-- The two-instruction fragments on R17:R16 and R19:R18, and with one register for all second operands. -/
theorem test_witness_AddThenAdcAddsSixteenBits :
    (17 : RegNum) ≠ 16 ∧ (19 : RegNum) ≠ 16
      ∧ ∃ s₁ s₂, exec (.add 16 18) (stateWith [(16, 0xFF#8), (18, 0x01#8)] 0x00#8) = .next s₁
          ∧ exec (.adc 17 19) s₁ = .next s₂ :=
  ⟨by decide, by decide, _, _, rfl, rfl⟩

theorem test_witness_SubThenSbcSubtractsSixteenBits :
    (17 : RegNum) ≠ 16 ∧ (19 : RegNum) ≠ 16
      ∧ ∃ s₁ s₂, exec (.sub 16 18) (stateWith [(17, 0x12#8), (18, 0x01#8)] 0x00#8) = .next s₁
          ∧ exec (.sbc 17 19) s₁ = .next s₂ :=
  ⟨by decide, by decide, _, _, rfl, rfl⟩

/-- Bit positions at both ends of the ranges of the shift and COM statements, and NEG's fixed point. -/
theorem test_witness_bits_and_neg :
    0 < 7 ∧ 6 < 7 ∧ 7 < 8 ∧ (stateWith [(16, 0x80#8)] 0x00#8).x 16 = 0x80#8 := by decide

theorem test_witness_InversePairsGiveTheRegisterBack :
    (∃ s₁ s₂, exec (.com 3) State.reset = .next s₁ ∧ exec (.com 3) s₁ = .next s₂)
      ∧ (∃ s₁ s₂, exec (.neg 3) State.reset = .next s₁ ∧ exec (.neg 3) s₁ = .next s₂)
      ∧ (∃ s₁ s₂, exec (.inc 3) State.reset = .next s₁ ∧ exec (.dec 3) s₁ = .next s₂)
      ∧ (∃ s₁ s₂, exec (.com 3) State.reset = .next s₁ ∧ exec (.neg 3) State.reset = .next s₂)
      ∧ ∃ s₁ s₂, exec (.rol 3) State.reset = .next s₁ ∧ exec (.ror 3) s₁ = .next s₂ :=
  ⟨⟨_, _, rfl, rfl⟩, ⟨_, _, rfl, rfl⟩, ⟨_, _, rfl, rfl⟩, ⟨_, _, rfl, rfl⟩, ⟨_, _, rfl, rfl⟩⟩

end Sys2Proof.Tests
end

section
/-! PROOFS. Sums with a carry and their bits. The flags of 10_state.md rules R29, R30 and R34 all speak of one relation,
`x + y + c = r` modulo `2 ^ w`: an addition is this relation, and a subtraction is the same relation read from the result,
`result + subtrahend + borrow = minuend`. So the Boolean forms of C, H, V and S are proved once, for every width. -/

namespace Sys2Proof.Machine

/-- `x + y + c` is `r`, modulo `2 ^ w`. -/
def IsSum {w : Nat} (x y : BitVec w) (c : Bool) (r : BitVec w) : Prop :=
  x + y + (BitVec.ofBool c).setWidth w = r

/-- How often `2 ^ w` must be added to the signed result to give the true signed sum, by the top bits of the operands and
of the result. -/
def signedExcess (x y r : Bool) : Int :=
  if x == y && r != x then (if r then 1 else -1) else 0

/-! ### Carries -/

/-- The low `i` bits of a sum, with the carry out of them. -/
theorem IsSum.mod_two_pow_add_carry {w : Nat} {x y r : BitVec w} {c : Bool} (h : IsSum x y c r) {i : Nat} (hi : i ≤ w) :
    r.toNat % 2 ^ i + 2 ^ i * (BitVec.carry i x y c).toNat = x.toNat % 2 ^ i + y.toNat % 2 ^ i + c.toNat := by
  have hr : r.toNat % 2 ^ i = (x.toNat % 2 ^ i + y.toNat % 2 ^ i + c.toNat) % 2 ^ i := by
    subst h
    simp [Nat.mod_mod_of_dvd _ (Nat.pow_dvd_pow 2 hi), Nat.add_mod]
  have hx := Nat.mod_lt x.toNat (Nat.two_pow_pos i)
  have hy := Nat.mod_lt y.toNat (Nat.two_pow_pos i)
  have hc := c.toNat_le
  rw [hr, BitVec.carry]
  by_cases hcarry : 2 ^ i ≤ x.toNat % 2 ^ i + y.toNat % 2 ^ i + c.toNat
  · rw [Nat.mod_eq_sub_mod hcarry, Nat.mod_eq_of_lt (by omega)]
    simp [hcarry]
  · rw [Nat.mod_eq_of_lt (by omega)]
    simp [hcarry]

/-- The carry out of bit `i`, from bit `i` of the operands and of the sum. -/
theorem IsSum.carry_succ_eq_bits {w : Nat} {x y r : BitVec w} {c : Bool} (h : IsSum x y c r) {i : Nat} (hi : i < w) :
    BitVec.carry (i + 1) x y c
      = (x.getLsbD i && y.getLsbD i || y.getLsbD i && !r.getLsbD i || !r.getLsbD i && x.getLsbD i) := by
  rw [← h, BitVec.carry_succ, BitVec.getLsbD_add_add_bool hi]
  cases x.getLsbD i <;> cases y.getLsbD i <;> cases BitVec.carry i x y c <;> rfl

/-- Read from the result, the carry is a borrow: the low bits of the minuend `a` are less than what is subtracted. -/
theorem IsSum.carry_eq_borrow {w : Nat} {a b r : BitVec w} {c : Bool} (h : IsSum r b c a) {i : Nat} (hi : i ≤ w) :
    BitVec.carry i r b c = decide (a.toNat % 2 ^ i < b.toNat % 2 ^ i + c.toNat) := by
  have hsum := h.mod_two_pow_add_carry hi
  have hr := Nat.mod_lt r.toNat (Nat.two_pow_pos i)
  cases hcarry : BitVec.carry i r b c <;> simp [hcarry] at hsum ⊢ <;> omega

/-! ### The signed value -/

/-- A two's complement value: the top bit counts negative. -/
theorem toInt_eq_toNat_sub_top {n : Nat} (x : BitVec (n + 1)) :
    x.toInt = x.toNat - 2 ^ (n + 1) * ((x.getLsbD n).toNat : Int) := by
  rw [BitVec.toInt_eq_msb_cond, BitVec.msb_eq_getLsbD_last, Nat.add_sub_cancel]
  cases x.getLsbD n <;> simp

/-- The true signed sum is the signed result and its excess. -/
theorem IsSum.toInt_sum {n : Nat} {x y r : BitVec (n + 1)} {c : Bool} (h : IsSum x y c r) :
    x.toInt + y.toInt + c.toNat
      = r.toInt + 2 ^ (n + 1) * signedExcess (x.getLsbD n) (y.getLsbD n) (r.getLsbD n) := by
  have hnat : (r.toNat : Int) + 2 ^ (n + 1) * ((BitVec.carry (n + 1) x y c).toNat : Int)
      = x.toNat + y.toNat + c.toNat := by
    have := h.mod_two_pow_add_carry (Nat.le_refl _)
    simp only [BitVec.toNat_mod_cancel] at this
    exact_mod_cast this
  rw [h.carry_succ_eq_bits (Nat.lt_succ_self n)] at hnat
  rw [toInt_eq_toNat_sub_top x, toInt_eq_toNat_sub_top y, toInt_eq_toNat_sub_top r]
  revert hnat
  cases x.getLsbD n <;> cases y.getLsbD n <;> cases r.getLsbD n <;> simp [signedExcess] <;> omega

/-- The top bit of a result tells in which half of the signed range it lies. -/
theorem toInt_range_of_top {n : Nat} (r : BitVec (n + 1)) :
    -2 ^ n ≤ r.toInt ∧ r.toInt < 2 ^ n ∧ r.getLsbD n = decide (r.toInt < 0) := by
  refine ⟨by simpa using r.le_toInt, by simpa using r.toInt_lt, ?_⟩
  rw [← BitVec.msb_eq_toInt, BitVec.msb_eq_getLsbD_last, Nat.add_sub_cancel]

/-! ### Signed overflow -/

theorem signedExcess_cases (x y r : Bool) :
    signedExcess x y r = -1 ∨ signedExcess x y r = 0 ∨ signedExcess x y r = 1 := by
  revert x y r; decide

theorem signedExcess_ne_zero_iff (x y r : Bool) : signedExcess x y r ≠ 0 ↔ (x == y && r != x) = true := by
  revert x y r; decide

/-- A result with an excess lies outside the signed range, one without lies in it. -/
theorem out_of_range_iff {n : Nat} (r : BitVec (n + 1)) {e : Int} (he : e = -1 ∨ e = 0 ∨ e = 1) :
    (r.toInt + 2 ^ (n + 1) * e < -2 ^ n ∨ 2 ^ n ≤ r.toInt + 2 ^ (n + 1) * e) ↔ e ≠ 0 := by
  obtain ⟨hlow, hhigh, -⟩ := toInt_range_of_top r
  rcases he with rfl | rfl | rfl <;> simp <;> omega

/-- Signed overflow of an addition: the sign the operands share is not the result's. -/
theorem IsSum.overflow_eq {n : Nat} {x y r : BitVec (n + 1)} {c : Bool} (h : IsSum x y c r) :
    (x.getLsbD n == y.getLsbD n && r.getLsbD n != x.getLsbD n)
      = decide (x.toInt + y.toInt + c.toNat < -2 ^ n ∨ 2 ^ n ≤ x.toInt + y.toInt + c.toNat) := by
  rw [h.toInt_sum, Bool.eq_iff_iff, decide_eq_true_iff, out_of_range_iff r (signedExcess_cases _ _ _),
    signedExcess_ne_zero_iff]

/-- The result's sign, turned round by overflow, is the sign of the true sum (rule R28 on S). -/
theorem IsSum.sign_eq {n : Nat} {x y r : BitVec (n + 1)} {c : Bool} (h : IsSum x y c r) :
    (r.getLsbD n ^^ (x.getLsbD n == y.getLsbD n && r.getLsbD n != x.getLsbD n))
      = decide (x.toInt + y.toInt + c.toNat < 0) := by
  obtain ⟨hlow, hhigh, htop⟩ := toInt_range_of_top r
  rw [h.toInt_sum, signedExcess]
  generalize (x.getLsbD n == y.getLsbD n && r.getLsbD n != x.getLsbD n) = overflow
  generalize r.getLsbD n = top at htop
  cases overflow
  case false => simp [htop]
  case true => cases top <;> simp at htop ⊢ <;> omega

/-- Signed overflow of a subtraction `a - b - c`, from the sum `r + b + c = a` it undoes. -/
theorem IsSum.borrow_overflow_eq {n : Nat} {a b r : BitVec (n + 1)} {c : Bool} (h : IsSum r b c a) :
    (a.getLsbD n != b.getLsbD n && r.getLsbD n != a.getLsbD n)
      = decide (a.toInt - b.toInt - c.toNat < -2 ^ n ∨ 2 ^ n ≤ a.toInt - b.toInt - c.toNat) := by
  have hcases := signedExcess_cases (r.getLsbD n) (b.getLsbD n) (a.getLsbD n)
  have hdiff : a.toInt - b.toInt - c.toNat
      = r.toInt + 2 ^ (n + 1) * -signedExcess (r.getLsbD n) (b.getLsbD n) (a.getLsbD n) := by
    linarith [h.toInt_sum]
  have hform : (a.getLsbD n != b.getLsbD n && r.getLsbD n != a.getLsbD n)
      = (r.getLsbD n == b.getLsbD n && a.getLsbD n != r.getLsbD n) := by
    generalize a.getLsbD n = a, b.getLsbD n = b, r.getLsbD n = r
    revert a b r; decide
  rw [hdiff, hform, Bool.eq_iff_iff, decide_eq_true_iff, out_of_range_iff r (by omega), neg_ne_zero,
    signedExcess_ne_zero_iff]

end Sys2Proof.Machine
end

section
/-! PROOFS. `add8`, `sub8`, `adiw16` and `sbiw16` as sums with a carry, and the two forms of each of their flags. -/

namespace Sys2Proof.Machine

/-! ### The parts of the flag functions -/

theorem isZero_eq (r : Byte) : isZero r = decide (r = 0x00#8) := beq_eq_decide _ _

theorem lowNibble_eq (a : Byte) : lowNibble a = a.toNat % 16 := by
  simp [lowNibble]

theorem const6_toNat (k : BitVec 6) : (const6 k).toNat = k.toNat := by
  simp [const6, Nat.mod_eq_of_lt (show k.toNat < 65536 by omega)]

theorem const6_getLsbD_top (k : BitVec 6) : (const6 k).getLsbD 15 = false := by
  rw [const6, BitVec.getLsbD_setWidth, BitVec.getLsbD_of_ge k 15 (by decide), Bool.and_false]

theorem const6_toInt (k : BitVec 6) : (const6 k).toInt = k.toNat := by
  rw [toInt_eq_toNat_sub_top, const6_getLsbD_top, const6_toNat]
  simp

theorem overflow_eq_bits (a b r : Bool) : (a == b && r != a) = (a && b && !r || !a && !b && r) := by
  revert a b r; decide

theorem borrow_overflow_eq_bits (a b r : Bool) : (a != b && r != a) = (a && !b && !r || !a && b && r) := by
  revert a b r; decide

/-! ### The results -/

theorem add8_r_toNat (a b : Byte) (c : Bool) : (add8 a b c).r.toNat = (a.toNat + b.toNat + c.toNat) % 256 := rfl

theorem sub8_r_toNat (a b : Byte) (c : Bool) :
    ((sub8 a b c).r.toNat : Int) = ((a.toNat : Int) - b.toNat - c.toNat) % 256 := by
  simp [sub8, Int.emod_nonneg]

theorem adiw16_r_toNat (p : Word) (k : BitVec 6) : (adiw16 p k).r.toNat = (p.toNat + k.toNat) % 65536 := by
  rw [← const6_toNat k]
  rfl

theorem sbiw16_r_toNat (p : Word) (k : BitVec 6) :
    ((sbiw16 p k).r.toNat : Int) = ((p.toNat : Int) - k.toNat) % 65536 := by
  simp [sbiw16, const6_toNat, Int.emod_nonneg]

/-! ### Each result is a sum, or a summand of the minuend -/

theorem add8_isSum (a b : Byte) (c : Bool) : IsSum a b c (add8 a b c).r := by
  apply BitVec.eq_of_toNat_eq
  simp [add8]

theorem sub8_isSum (a b : Byte) (c : Bool) : IsSum (sub8 a b c).r b c a := by
  apply BitVec.eq_of_toNat_eq
  have hr := sub8_r_toNat a b c
  have hc := c.toNat_le
  simp only [BitVec.toNat_add, BitVec.toNat_setWidth, BitVec.toNat_ofBool]
  omega

theorem adiw16_isSum (p : Word) (k : BitVec 6) : IsSum p (const6 k) false (adiw16 p k).r := by
  apply BitVec.eq_of_toNat_eq
  simp [adiw16]

theorem sbiw16_isSum (p : Word) (k : BitVec 6) : IsSum (sbiw16 p k).r (const6 k) false p := by
  apply BitVec.eq_of_toNat_eq
  have hr := sbiw16_r_toNat p k
  have hk := const6_toNat k
  simp only [BitVec.toNat_add, BitVec.toNat_setWidth, BitVec.toNat_ofBool, Bool.toNat_false]
  omega

/-! ### `add8` (rule R29) -/

theorem add8_c_eq_carry (a b : Byte) (c : Bool) : (add8 a b c).c = BitVec.carry 8 a b c := by
  rw [BitVec.carry, Nat.mod_eq_of_lt a.isLt, Nat.mod_eq_of_lt b.isLt]
  rfl

theorem add8_h_eq (a b : Byte) (c : Bool) :
    (add8 a b c).h = decide (16 ≤ a.toNat % 16 + b.toNat % 16 + c.toNat) := by
  simp [add8, lowNibble_eq]

theorem add8_h_eq_carry (a b : Byte) (c : Bool) : (add8 a b c).h = BitVec.carry 4 a b c := by
  rw [add8_h_eq]
  rfl

theorem add8_v_eq_out_of_range (a b : Byte) (c : Bool) :
    (add8 a b c).v = decide (a.toInt + b.toInt + c.toNat < -128 ∨ 127 < a.toInt + b.toInt + c.toNat) :=
  (add8_isSum a b c).overflow_eq.trans (decide_eq_decide.mpr (by omega))

theorem add8_s_eq_sign (a b : Byte) (c : Bool) : (add8 a b c).s = decide (a.toInt + b.toInt + c.toNat < 0) :=
  (add8_isSum a b c).sign_eq

/-! ### `sub8` (rule R30) -/

theorem sub8_h_eq (a b : Byte) (c : Bool) :
    (sub8 a b c).h = decide (((a.toNat % 16 : Nat) : Int) - (b.toNat % 16 : Nat) - c.toNat < 0) := by
  simp [sub8, lowNibble_eq]

theorem sub8_c_eq_carry (a b : Byte) (c : Bool) : (sub8 a b c).c = BitVec.carry 8 (sub8 a b c).r b c := by
  rw [(sub8_isSum a b c).carry_eq_borrow (Nat.le_refl 8)]
  exact decide_eq_decide.mpr (by omega)

theorem sub8_h_eq_carry (a b : Byte) (c : Bool) : (sub8 a b c).h = BitVec.carry 4 (sub8 a b c).r b c := by
  rw [(sub8_isSum a b c).carry_eq_borrow (by decide), sub8_h_eq, decide_eq_decide]
  omega

theorem sub8_v_eq_out_of_range (a b : Byte) (c : Bool) :
    (sub8 a b c).v = decide (a.toInt - b.toInt - c.toNat < -128 ∨ 127 < a.toInt - b.toInt - c.toNat) :=
  (sub8_isSum a b c).borrow_overflow_eq.trans (decide_eq_decide.mpr (by omega))

theorem sub8_z_eq (a b : Byte) (c : Bool) : (sub8 a b c).z = decide ((sub8 a b c).r = 0x00#8) := isZero_eq _

theorem sub8Sticky_eq (a b : Byte) (c z : Bool) :
    sub8Sticky a b c z = { sub8 a b c with z := decide ((sub8 a b c).r = 0x00#8) && z } := by
  rw [sub8Sticky, sub8_z_eq]

/-! ### The word operations (rule R34) -/

theorem adiw16_c_eq_carry (p : Word) (k : BitVec 6) : (adiw16 p k).c = BitVec.carry 16 p (const6 k) false := by
  rw [BitVec.carry, Nat.mod_eq_of_lt p.isLt, Nat.mod_eq_of_lt (const6 k).isLt]
  rfl

theorem adiw16_c_eq (p : Word) (k : BitVec 6) : (adiw16 p k).c = decide (65536 ≤ p.toNat + k.toNat) := by
  rw [← const6_toNat k]
  rfl

theorem sbiw16_c_eq (p : Word) (k : BitVec 6) : (sbiw16 p k).c = decide (p.toNat < k.toNat) := by
  simp [sbiw16, const6_toNat]

theorem sbiw16_c_eq_carry (p : Word) (k : BitVec 6) :
    (sbiw16 p k).c = BitVec.carry 16 (sbiw16 p k).r (const6 k) false := by
  rw [(sbiw16_isSum p k).carry_eq_borrow (Nat.le_refl 16), sbiw16_c_eq, const6_toNat, Bool.toNat_false, decide_eq_decide]
  omega

/-- Bit 15 of the constant is 0, so C is the carry that leaves the top bit of the pair. -/
theorem adiw16_c_eq_bits (p : Word) (k : BitVec 6) :
    (adiw16 p k).c = (!(adiw16 p k).r.getLsbD 15 && p.getLsbD 15) := by
  rw [adiw16_c_eq_carry, (adiw16_isSum p k).carry_succ_eq_bits (by decide), const6_getLsbD_top]
  simp

theorem sbiw16_c_eq_bits (p : Word) (k : BitVec 6) :
    (sbiw16 p k).c = ((sbiw16 p k).r.getLsbD 15 && !p.getLsbD 15) := by
  rw [sbiw16_c_eq_carry, (sbiw16_isSum p k).carry_succ_eq_bits (by decide), const6_getLsbD_top]
  simp [Bool.and_comm]

/-- The top bit of the constant being 0, V is the overflow of the general sum. -/
theorem adiw16_v_eq_overflow (p : Word) (k : BitVec 6) :
    (adiw16 p k).v
      = (p.getLsbD 15 == (const6 k).getLsbD 15 && (adiw16 p k).r.getLsbD 15 != p.getLsbD 15) := by
  change (!p.getLsbD 15 && (adiw16 p k).r.getLsbD 15) = _
  rw [const6_getLsbD_top]
  cases p.getLsbD 15 <;> simp

/-- The constant is not negative, so only the upper end of the signed range can be passed. -/
theorem adiw16_v_eq_out_of_range (p : Word) (k : BitVec 6) :
    (adiw16 p k).v = decide (32767 < p.toInt + k.toNat) := by
  have hp := p.le_toInt
  rw [adiw16_v_eq_overflow, (adiw16_isSum p k).overflow_eq, const6_toInt, decide_eq_decide, Bool.toNat_false]
  omega

/-- The top bit of the constant being 0, V is the overflow of the general difference. -/
theorem sbiw16_v_eq_overflow (p : Word) (k : BitVec 6) :
    (sbiw16 p k).v
      = (p.getLsbD 15 != (const6 k).getLsbD 15 && (sbiw16 p k).r.getLsbD 15 != p.getLsbD 15) := by
  change (p.getLsbD 15 && !(sbiw16 p k).r.getLsbD 15) = _
  rw [const6_getLsbD_top]
  cases p.getLsbD 15 <;> simp

/-- The constant is not negative, so only the lower end of the signed range can be passed. -/
theorem sbiw16_v_eq_out_of_range (p : Word) (k : BitVec 6) :
    (sbiw16 p k).v = decide (p.toInt - k.toNat < -32768) := by
  have hp := p.toInt_lt
  rw [sbiw16_v_eq_overflow, (sbiw16_isSum p k).borrow_overflow_eq, const6_toInt, decide_eq_decide, Bool.toNat_false]
  omega

/-! ### The rules -/

/-- Settles O22: both forms of C and H are a carry of the sum `a + b + c = r`; V and S read its true signed value. -/
theorem add8FormsAgree : Obligations.Add8FormsAgree := by
  intro a b c
  have hsum := add8_isSum a b c
  have hC := (add8_c_eq_carry a b c).trans (hsum.carry_succ_eq_bits (by decide))
  have hH := (add8_h_eq_carry a b c).trans (hsum.carry_succ_eq_bits (by decide))
  exact ⟨_, rfl, add8_r_toNat a b c, rfl, hC, add8_h_eq a b c, hH, rfl, overflow_eq_bits _ _ _,
    add8_v_eq_out_of_range a b c, rfl, isZero_eq _, rfl, add8_s_eq_sign a b c⟩

/-- Settles O23: the flags are those of the sum `r + b + c = a` that the subtraction undoes, its carries the borrows. -/
theorem sub8FormsAgree : Obligations.Sub8FormsAgree := by
  intro a b c z
  have hsum := sub8_isSum a b c
  have hC := (sub8_c_eq_carry a b c).trans (hsum.carry_succ_eq_bits (by decide))
  have hH := (sub8_h_eq_carry a b c).trans (hsum.carry_succ_eq_bits (by decide))
  refine ⟨_, rfl, sub8_r_toNat a b c, rfl, ?_, sub8_h_eq a b c, ?_, rfl, borrow_overflow_eq_bits _ _ _,
    sub8_v_eq_out_of_range a b c, rfl, rfl, sub8_z_eq a b c, sub8Sticky_eq a b c z⟩
  · rw [hC]; ac_rfl
  · rw [hH]; ac_rfl

/-- Settles O24: the sums of O22 and O23 at 16 bits, with a constant whose top bit is 0. -/
theorem wordFlagFormsAgree : Obligations.WordFlagFormsAgree := fun p k =>
  ⟨⟨_, rfl, adiw16_r_toNat p k, adiw16_c_eq p k, adiw16_c_eq_bits p k, rfl, adiw16_v_eq_out_of_range p k, rfl,
      beq_eq_decide _ _, rfl, fun _ => rfl⟩,
    ⟨_, rfl, sbiw16_r_toNat p k, sbiw16_c_eq p k, sbiw16_c_eq_bits p k, rfl, sbiw16_v_eq_out_of_range p k, rfl,
      beq_eq_decide _ _, rfl, fun _ => rfl⟩⟩

end Sys2Proof.Machine
end

section
/-! PROOFS. What an instruction can do, by the writeback it ends in, and the step of 20_memory.md rule R41 by what stands at
the counter: no word, a word of no instruction, or an instruction. -/

namespace Sys2Proof.Machine

/-! ### The end of every instruction -/

/-- Whatever the instruction and the state, it completes: it ends in one of the two writebacks, so it changes no more than
their frame allows, and advances the counter once. -/
theorem exec_completes_keepsRest (i : Instr) (s : State) : ∃ t, exec i s = .next t ∧ KeepsRest (destinations i) s t := by
  cases i with
  | and d r => exact ⟨_, exec_and d r s, s.writeback_keepsRest _ _ _ rfl rfl⟩
  | andi d k => exact ⟨_, exec_andi d k s, s.writeback_keepsRest _ _ _ rfl rfl⟩
  | or d r => exact ⟨_, exec_or d r s, s.writeback_keepsRest _ _ _ rfl rfl⟩
  | ori d k => exact ⟨_, exec_ori d k s, s.writeback_keepsRest _ _ _ rfl rfl⟩
  | eor d r => exact ⟨_, exec_eor d r s, s.writeback_keepsRest _ _ _ rfl rfl⟩
  | lsl d => exact ⟨_, exec_lsl d s, s.writeback_keepsRest _ _ _ rfl rfl⟩
  | lsr d => exact ⟨_, exec_lsr d s, s.writeback_keepsRest _ _ _ rfl rfl⟩
  | rol d => exact ⟨_, exec_rol d s, s.writeback_keepsRest _ _ _ rfl rfl⟩
  | ror d => exact ⟨_, exec_ror d s, s.writeback_keepsRest _ _ _ rfl rfl⟩
  | asr d => exact ⟨_, exec_asr d s, s.writeback_keepsRest _ _ _ rfl rfl⟩
  | ser d => exact ⟨_, exec_ser d s, s.writeback_keepsRest _ _ _ rfl rfl⟩
  | clr d => exact ⟨_, exec_clr d s, s.writeback_keepsRest _ _ _ rfl rfl⟩
  | inc d => exact ⟨_, exec_inc d s, s.writeback_keepsRest _ _ _ rfl rfl⟩
  | dec d => exact ⟨_, exec_dec d s, s.writeback_keepsRest _ _ _ rfl rfl⟩
  | add d r => exact ⟨_, exec_add d r s, s.writeback_keepsRest _ _ _ rfl rfl⟩
  | sub d r => exact ⟨_, exec_sub d r s, s.writeback_keepsRest _ _ _ rfl rfl⟩
  | subi d k => exact ⟨_, exec_subi d k s, s.writeback_keepsRest _ _ _ rfl rfl⟩
  | adc d r => exact ⟨_, exec_adc d r s, s.writeback_keepsRest _ _ _ rfl rfl⟩
  | sbc d r => exact ⟨_, exec_sbc d r s, s.writeback_keepsRest _ _ _ rfl rfl⟩
  | sbci d k => exact ⟨_, exec_sbci d k s, s.writeback_keepsRest _ _ _ rfl rfl⟩
  | adiw dl k => exact ⟨_, exec_adiw dl k s, s.writebackPair_keepsRest _ _ _ rfl rfl⟩
  | sbiw dl k => exact ⟨_, exec_sbiw dl k s, s.writebackPair_keepsRest _ _ _ rfl rfl⟩
  | com d => exact ⟨_, exec_com d s, s.writeback_keepsRest _ _ _ rfl rfl⟩
  | neg d => exact ⟨_, exec_neg d s, s.writeback_keepsRest _ _ _ rfl rfl⟩

/-! ### The step, by what stands at the counter -/

theorem step_outside {s : State} (h : s.dev.flashWords ≤ s.pc) : step s = .refused (.outOfScopeFetch s.pc) := by
  simp [step, State.fetchInstr, State.fetch_outside h]

theorem step_of_decode_none {s : State} {w : Word} (h : s.pc < s.dev.flashWords) (hw : s.progRead s.pc = .ok w)
    (hi : decode w = none) : step s = .refused (.outOfScopeWord w s.pc) := by
  simp [step, State.fetchInstr, State.fetch_word h hw, hi]

theorem step_of_decode_some {s : State} {w : Word} {i : Instr} (h : s.pc < s.dev.flashWords)
    (hw : s.progRead s.pc = .ok w) (hi : decode w = some i) : step s = exec i s := by
  simp [step, State.fetchInstr, State.fetch_word h hw, hi]

/-- Settles O11: the step's three equations, and the counter in the frame of the instruction run. -/
theorem stepFetchesDecodesAndExecutes : Obligations.StepFetchesDecodesAndExecutes := by
  refine fun s => ⟨step_outside, fun hpc w hw => ⟨step_of_decode_none hpc hw, fun i hi => ?_⟩⟩
  have hstep : step s = exec i s := step_of_decode_some hpc hw hi
  obtain ⟨t, hexec, -, -, -, -, -, htpc⟩ := exec_completes_keepsRest i s
  exact ⟨hstep, t, hstep.trans hexec, htpc⟩

end Sys2Proof.Machine
end

section
/-! PROOFS. From the encoding rows to the decoder (30_encoding.md rules R61, R62, R68, R71). The fields of a row
are read once for all widths; a test of the decoder fails on a word of another row because the two masks meet in a bit
where the two patterns differ. So an instruction has the words of its row as soon as its own test answers it. -/

open Claims

namespace Sys2Proof

/-! ### The fields of a concatenation -/

/-- The fields after the first, each read at the position where the row puts it. -/
theorem extractLsb'_append_fields {a b c e : Nat} (w : BitVec a) (x : BitVec b) (y : BitVec c) (z : BitVec e) :
    (w ++ x ++ y ++ z).extractLsb' (e + c) b = x ∧ (w ++ x ++ y ++ z).extractLsb' e c = y
      ∧ (w ++ x ++ y ++ z).extractLsb' 0 e = z := by
  simp [BitVec.extractLsb'_append_eq_of_le, BitVec.extractLsb'_append_eq_of_add_le]

/-- A mask of the first field keeps it and clears the others. -/
theorem append_fields_and_mask {a b c e : Nat} (w : BitVec a) (x : BitVec b) (y : BitVec c) (z : BitVec e) :
    (w ++ x ++ y ++ z) &&& (BitVec.allOnes a ++ 0#b ++ 0#c ++ 0#e) = w ++ 0#b ++ 0#c ++ 0#e := by
  simp only [BitVec.and_append, BitVec.and_allOnes, BitVec.and_zero]

/-- A value split between two fields of a row is put together again. -/
theorem extractLsb'_append_extractLsb'_self {n m : Nat} (x : BitVec (n + m)) :
    x.extractLsb' m n ++ x.extractLsb' 0 m = x := by
  rw [BitVec.extractLsb'_append_extractLsb'_eq_extractLsb' (Nat.zero_add m).symm]
  exact BitVec.extractLsb'_eq_self

/-! ### Format RR (rule R61) -/

theorem rowRR_and_mask (o : BitVec 6) (d r : BitVec 5) : rowRR o d r &&& 0xFC00#16 = rowRR o 0#5 0#5 :=
  append_fields_and_mask o _ d _

theorem rowRR_fields (o : BitVec 6) (d r : BitVec 5) :
    (rowRR o d r).extractLsb' 9 1 = r.extractLsb' 4 1 ∧ (rowRR o d r).extractLsb' 4 5 = d
      ∧ (rowRR o d r).extractLsb' 0 4 = r.extractLsb' 0 4 :=
  extractLsb'_append_fields o _ d _

theorem fieldD_rowRR (o : BitVec 6) (d r : BitVec 5) : fieldD (rowRR o d r) = d.toFin := by
  obtain ⟨-, hd, -⟩ := rowRR_fields o d r
  rw [fieldD, hd]

theorem fieldR_rowRR (o : BitVec 6) (d r : BitVec 5) : fieldR (rowRR o d r) = r.toFin := by
  obtain ⟨hhigh, -, hlow⟩ := rowRR_fields o d r
  have hr : r.extractLsb' 4 1 ++ r.extractLsb' 0 4 = r := extractLsb'_append_extractLsb'_self (n := 1) (m := 4) r
  rw [fieldR, hhigh, hlow, hr]

theorem regBits_toFin (d : BitVec 5) : regBits d.toFin = d := by
  simp [regBits]

theorem encodeRR_toFin (o : BitVec 6) (d r : BitVec 5) : encodeRR o d.toFin r.toFin = rowRR o d r := by
  rw [encodeRR, rowRR, regBits_toFin, regBits_toFin]

/-- An instruction of format RR has the words of the row with opcode `o`: it is encoded by that opcode, and the decoder
answers it where the word's opcode bits are `o`. -/
theorem encodedRR_of_decode {o : BitVec 6} {mk : RegNum → RegNum → Instr}
    (hwf : ∀ d r, (mk d r).wellFormed = true) (henc : ∀ d r, encodeWord (mk d r) = encodeRR o d r)
    (hdec : ∀ w, w &&& 0xFC00#16 = rowRR o 0#5 0#5 → decode w = some (mk (fieldD w) (fieldR w))) :
    EncodedRR o mk := by
  refine fun d r => ⟨?_, ?_⟩
  · rw [encode, if_pos (hwf _ _), henc, encodeRR_toFin]
  · rw [hdec _ (rowRR_and_mask o d r), fieldD_rowRR, fieldR_rowRR]

/-! ### Format RI (rule R62) -/

theorem isUpperReg_iff (d : RegNum) : isUpperReg d = true ↔ 16 ≤ d.val := decide_eq_true_iff

theorem rowRI_and_mask (o dddd : BitVec 4) (k : Byte) : rowRI o dddd k &&& 0xF000#16 = rowRI o 0#4 0#8 :=
  append_fields_and_mask o _ dddd _

theorem rowRI_fields (o dddd : BitVec 4) (k : Byte) :
    (rowRI o dddd k).extractLsb' 8 4 = k.extractLsb' 4 4 ∧ (rowRI o dddd k).extractLsb' 4 4 = dddd
      ∧ (rowRI o dddd k).extractLsb' 0 4 = k.extractLsb' 0 4 :=
  extractLsb'_append_fields o _ dddd _

theorem fieldUpperD_rowRI (o : BitVec 4) {dddd : BitVec 4} (k : Byte) {d : RegNum} (hd : d.val = 16 + dddd.toNat) :
    fieldUpperD (rowRI o dddd k) = d := by
  obtain ⟨-, hdddd, -⟩ := rowRI_fields o dddd k
  rw [fieldUpperD, hdddd, ← hd]
  exact Fin.ofNat_val_eq_self d

theorem fieldK8_rowRI (o dddd : BitVec 4) (k : Byte) : fieldK8 (rowRI o dddd k) = k := by
  obtain ⟨hhigh, -, hlow⟩ := rowRI_fields o dddd k
  have hk : k.extractLsb' 4 4 ++ k.extractLsb' 0 4 = k := extractLsb'_append_extractLsb'_self (n := 4) (m := 4) k
  rw [fieldK8, hhigh, hlow, hk]

theorem encodeRI_eq_rowRI (o : BitVec 4) {dddd : BitVec 4} (k : Byte) {d : RegNum} (hd : d.val = 16 + dddd.toNat) :
    encodeRI o d k = rowRI o dddd k := by
  have hbits : upperRegBits d = dddd := by simp [upperRegBits, hd]
  rw [encodeRI, rowRI, hbits]

/-- As `encodedRR_of_decode`, for format RI: the encoder takes R16 to R31 and refuses the registers below. -/
theorem encodedRI_of_decode {o : BitVec 4} {mk : RegNum → Byte → Instr}
    (hwf : ∀ d k, (mk d k).wellFormed = isUpperReg d) (henc : ∀ d k, encodeWord (mk d k) = encodeRI o d k)
    (hdec : ∀ w, w &&& 0xF000#16 = rowRI o 0#4 0#8 → decode w = some (mk (fieldUpperD w) (fieldK8 w))) :
    EncodedRI o mk := by
  refine ⟨fun dddd k d hd => ⟨?_, ?_⟩, fun d k hd => ?_⟩
  · have hupper : isUpperReg d = true := (isUpperReg_iff d).2 (by omega)
    rw [encode, if_pos ((hwf d k).trans hupper), henc, encodeRI_eq_rowRI o k hd]
  · rw [hdec _ (rowRI_and_mask o dddd k), fieldUpperD_rowRI o k hd, fieldK8_rowRI]
  · have hlower : ¬ isUpperReg d = true := fun h => absurd ((isUpperReg_iff d).1 h) (by omega)
    rw [encode, if_neg (hwf d k ▸ hlower)]

/-! ### The tests of the decoder (rule R71) -/

/-- A word that passes one test fails every test whose pattern differs from the first one's in a bit of both masks. -/
theorem and_mask_ne {w m m' p p' : Word} (h : w &&& m' = p') (hp : p &&& m' ≠ p' &&& m) : ¬ w &&& m = p := by
  rintro rfl
  rw [← h] at hp
  exact hp (by ac_rfl)

theorem decode_of_and_opcode {w : Word} (h : w &&& 0xFC00#16 = 0x2000#16) :
    decode w = some (.and (fieldD w) (fieldR w)) := by
  simp (disch := decide) only [decode, and_mask_ne h, if_false, if_pos h]

theorem decode_of_or_opcode {w : Word} (h : w &&& 0xFC00#16 = 0x2800#16) :
    decode w = some (.or (fieldD w) (fieldR w)) := by
  simp (disch := decide) only [decode, and_mask_ne h, if_false, if_pos h]

theorem decode_of_eor_opcode {w : Word} (h : w &&& 0xFC00#16 = 0x2400#16) :
    decode w = some (.eor (fieldD w) (fieldR w)) := by
  simp (disch := decide) only [decode, and_mask_ne h, if_false, if_pos h]

theorem decode_of_andi_opcode {w : Word} (h : w &&& 0xF000#16 = 0x7000#16) :
    decode w = some (.andi (fieldUpperD w) (fieldK8 w)) := by
  simp (disch := decide) only [decode, and_mask_ne h, if_false, if_pos h]

theorem decode_of_ori_opcode {w : Word} (h : w &&& 0xF000#16 = 0x6000#16) :
    decode w = some (.ori (fieldUpperD w) (fieldK8 w)) := by
  simp (disch := decide) only [decode, and_mask_ne h, if_false, if_pos h]

end Sys2Proof
end

section
/-! PROOFS. The logical instructions (40_logical.md): all five end in one writeback with the flags of 10_state.md rule
R32, and have the words of their rows. -/

open Claims

namespace Sys2Proof.Machine

/-- Rule R100: a writeback with `logic_flags` clears V, takes N and S from bit 7 (S is N since V is 0) and Z from the
result, and keeps the rest. -/
theorem logicalOutcome_writeback (d : RegNum) (r : Byte) (s : State) :
    LogicalOutcome d r s (.next (s.writeback d r (s.sreg.putLogic r))) := by
  have hx : (s.writeback d r (s.sreg.putLogic r)).x d = r := by rw [State.writeback_x, if_pos rfl]
  have hs : signTest (negative r) false = r.getLsbD 7 := Bool.xor_false _
  exact ⟨_, rfl, hx, rfl, rfl, isZero_eq r, hs, rfl, rfl, s.writeback_keepsRest d r _ rfl rfl⟩

theorem encodedRR_and : EncodedRR 0b001000#6 .and :=
  encodedRR_of_decode (fun _ _ => rfl) (fun _ _ => rfl) fun _ => decode_of_and_opcode

theorem encodedRR_or : EncodedRR 0b001010#6 .or :=
  encodedRR_of_decode (fun _ _ => rfl) (fun _ _ => rfl) fun _ => decode_of_or_opcode

theorem encodedRR_eor : EncodedRR 0b001001#6 .eor :=
  encodedRR_of_decode (fun _ _ => rfl) (fun _ _ => rfl) fun _ => decode_of_eor_opcode

theorem encodedRI_andi : EncodedRI 0b0111#4 .andi :=
  encodedRI_of_decode (fun _ _ => rfl) (fun _ _ => rfl) fun _ => decode_of_andi_opcode

theorem encodedRI_ori : EncodedRI 0b0110#4 .ori :=
  encodedRI_of_decode (fun _ _ => rfl) (fun _ _ => rfl) fun _ => decode_of_ori_opcode

/-- Settles O25: each instruction's row, and its outcome as the writeback of rule R100. -/
theorem andOrEorCombineTwoRegisters : Obligations.AndOrEorCombineTwoRegisters := by
  refine ⟨encodedRR_and, encodedRR_or, encodedRR_eor, fun d r s => ⟨?_, ?_, ?_, rfl, rfl, rfl⟩⟩
  · rw [exec_and]
    exact logicalOutcome_writeback d _ s
  · rw [exec_or]
    exact logicalOutcome_writeback d _ s
  · rw [exec_eor]
    exact logicalOutcome_writeback d _ s

/-- Settles O26: as O25, with the constant as second operand. The range of `d` bounds the words only: the outcome holds
for every register. -/
theorem andiOriCombineARegisterAndAConstant : Obligations.AndiOriCombineARegisterAndAConstant := by
  refine ⟨encodedRI_andi, encodedRI_ori, fun d k s _ => ⟨?_, ?_, rfl, rfl⟩⟩
  · rw [exec_andi]
    exact logicalOutcome_writeback d _ s
  · rw [exec_ori]
    exact logicalOutcome_writeback d _ s

end Sys2Proof.Machine
end

section
/-! PROOFS. Format R1 (30_encoding.md rule R64), and the decoder's tests for the words of the shifts and rotations. -/

open Claims

namespace Sys2Proof

/-! ### Format R1 (rule R64) -/

/-- The field between two others, read at the position where the row puts it. -/
theorem extractLsb'_append_middle {a b c : Nat} (w : BitVec a) (x : BitVec b) (y : BitVec c) :
    (w ++ x ++ y).extractLsb' c b = x := by
  rw [BitVec.extractLsb'_append_eq_of_le (Nat.le_refl c), Nat.sub_self,
    BitVec.extractLsb'_append_eq_of_add_le (Nat.zero_add b).le, BitVec.extractLsb'_eq_self]

theorem rowR1_and_mask (f : BitVec 4) (d : BitVec 5) : rowR1 f d &&& 0xFE0F#16 = rowR1 f 0#5 := by
  change (0b1001010#7 ++ d ++ f) &&& (BitVec.allOnes 7 ++ 0#5 ++ BitVec.allOnes 4) = 0b1001010#7 ++ 0#5 ++ f
  simp only [BitVec.and_append, BitVec.and_allOnes, BitVec.and_zero]

theorem fieldD_rowR1 (f : BitVec 4) (d : BitVec 5) : fieldD (rowR1 f d) = d.toFin :=
  congrArg BitVec.toFin (extractLsb'_append_middle 0b1001010#7 d f)

theorem encodeR1_toFin (f : BitVec 4) (d : BitVec 5) : encodeR1 f d.toFin = rowR1 f d := by
  rw [encodeR1, rowR1, regBits_toFin]

/-- As `encodedRR_of_decode`, for format R1: one register field, and the low four bits are the rest of the opcode. -/
theorem encodedR1_of_decode {f : BitVec 4} {mk : RegNum → Instr} (hwf : ∀ d, (mk d).wellFormed = true)
    (henc : ∀ d, encodeWord (mk d) = encodeR1 f d)
    (hdec : ∀ w, w &&& 0xFE0F#16 = rowR1 f 0#5 → decode w = some (mk (fieldD w))) : EncodedR1 f mk := by
  refine fun d => ⟨?_, ?_⟩
  · rw [encode, if_pos (hwf _), henc, encodeR1_toFin]
  · rw [hdec _ (rowR1_and_mask f d), fieldD_rowR1]

/-! ### The tests of the decoder (rule R71) -/

theorem decode_of_add_opcode {w : Word} (h : w &&& 0xFC00#16 = 0x0C00#16) :
    decode w = some (.add (fieldD w) (fieldR w)) := by
  simp (disch := decide) only [decode, and_mask_ne h, if_false, if_pos h]

theorem decode_of_adc_opcode {w : Word} (h : w &&& 0xFC00#16 = 0x1C00#16) :
    decode w = some (.adc (fieldD w) (fieldR w)) := by
  simp (disch := decide) only [decode, and_mask_ne h, if_false, if_pos h]

theorem decode_of_asr_opcode {w : Word} (h : w &&& 0xFE0F#16 = 0x9405#16) : decode w = some (.asr (fieldD w)) := by
  simp (disch := decide) only [decode, and_mask_ne h, if_false, if_pos h]

theorem decode_of_lsr_opcode {w : Word} (h : w &&& 0xFE0F#16 = 0x9406#16) : decode w = some (.lsr (fieldD w)) := by
  simp (disch := decide) only [decode, and_mask_ne h, if_false, if_pos h]

theorem decode_of_ror_opcode {w : Word} (h : w &&& 0xFE0F#16 = 0x9407#16) : decode w = some (.ror (fieldD w)) := by
  simp (disch := decide) only [decode, and_mask_ne h, if_false, if_pos h]

/-! ### The rows of the five instructions -/

theorem encodedRR_add : EncodedRR 0b000011#6 .add :=
  encodedRR_of_decode (fun _ _ => rfl) (fun _ _ => rfl) fun _ => decode_of_add_opcode

theorem encodedRR_adc : EncodedRR 0b000111#6 .adc :=
  encodedRR_of_decode (fun _ _ => rfl) (fun _ _ => rfl) fun _ => decode_of_adc_opcode

theorem encodedR1_asr : EncodedR1 0b0101#4 .asr :=
  encodedR1_of_decode (fun _ => rfl) (fun _ => rfl) fun _ => decode_of_asr_opcode

theorem encodedR1_lsr : EncodedR1 0b0110#4 .lsr :=
  encodedR1_of_decode (fun _ => rfl) (fun _ => rfl) fun _ => decode_of_lsr_opcode

theorem encodedR1_ror : EncodedR1 0b0111#4 .ror :=
  encodedR1_of_decode (fun _ => rfl) (fun _ => rfl) fun _ => decode_of_ror_opcode

/-- The second names of rule R70: the word is that of the instruction the decoder answers, both register fields d. -/
theorem encode_lsl_eq_add (d : RegNum) : encode (.lsl d) = encode (.add d d) := rfl

theorem encode_rol_eq_adc (d : RegNum) : encode (.rol d) = encode (.adc d d) := rfl

end Sys2Proof
end

section
/-! PROOFS. The shifts and rotations (41_shift_rotate.md rule R110): a move by one place to the left or to the right, of
which the five instructions are the cases of the bit that enters. -/

open Claims

namespace Sys2Proof.Machine

/-! ### One place to the left -/

/-- The model's concatenation is the library's shift left with an entering bit. -/
theorem extractLsb'_append_ofBool {n : Nat} (a : BitVec (n + 1)) (b : Bool) :
    a.extractLsb' 0 n ++ BitVec.ofBool b = a.shiftConcat b := by
  apply BitVec.eq_of_getLsbD_eq
  intro i hi
  change ((a.extractLsb' 0 n).concat b).getLsbD i = _
  rw [BitVec.getLsbD_concat, BitVec.getLsbD_shiftConcat, decide_eq_true hi, Bool.true_and]
  by_cases h0 : i = 0
  · rw [if_pos h0, if_pos h0]
  · simp [h0, show i - 1 < n by omega]

theorem getLsbD_shiftConcat_zero {n : Nat} (a : BitVec (n + 1)) (b : Bool) : (a.shiftConcat b).getLsbD 0 = b := by
  simp

theorem getLsbD_shiftConcat_succ {n k : Nat} (a : BitVec (n + 1)) (b : Bool) (hk : k < n) :
    (a.shiftConcat b).getLsbD (k + 1) = a.getLsbD k := by
  rw [BitVec.getLsbD_shiftConcat, decide_eq_true (Nat.succ_lt_succ hk), Bool.true_and, if_neg (Nat.succ_ne_zero k),
    Nat.add_sub_cancel]

theorem toNat_shiftConcat_eq_two_mul {w : Nat} (a : BitVec w) (b : Bool) :
    (a.shiftConcat b).toNat = (2 * a.toNat + b.toNat) % 2 ^ w := by
  rw [BitVec.toNat_shiftConcat, Nat.shiftLeft_eq, pow_one, Nat.mul_comm]

/-! ### One place to the right -/

/-- `a` moved one place to the right, `b` entering at the top. -/
def consShift {n : Nat} (b : Bool) (a : BitVec (n + 1)) : BitVec (n + 1) := BitVec.cons b (a.extractLsb' 1 n)

/-- The model's concatenation is `consShift`. -/
theorem ofBool_append_extractLsb' (b : Bool) (a : Byte) : BitVec.ofBool b ++ a.extractLsb' 1 7 = consShift b a := rfl

theorem getLsbD_consShift_top {n : Nat} (b : Bool) (a : BitVec (n + 1)) : (consShift b a).getLsbD n = b := by
  rw [consShift, BitVec.getLsbD_cons, if_pos rfl]

theorem getLsbD_consShift_of_lt {n k : Nat} (b : Bool) (a : BitVec (n + 1)) (hk : k < n) :
    (consShift b a).getLsbD k = a.getLsbD (k + 1) := by
  simp [consShift, BitVec.getLsbD_cons, hk, hk.ne, Nat.add_comm 1 k]

theorem toNat_consShift {n : Nat} (b : Bool) (a : BitVec (n + 1)) :
    (consShift b a).toNat = 2 ^ n * b.toNat + a.toNat / 2 := by
  have ha : a.toNat / 2 < 2 ^ n := Nat.div_lt_of_lt_mul (Nat.pow_succ' ▸ a.isLt)
  rw [consShift, BitVec.toNat_cons', BitVec.extractLsb'_toNat, Nat.shiftLeft_eq, Nat.shiftRight_eq_div_pow, pow_one,
    Nat.mod_eq_of_lt ha, Nat.mul_comm]

/-- With the top bit copied the signed value is halved, rounded down: what the bit takes off is halved
with the value. -/
theorem toInt_consShift_top {n : Nat} (a : BitVec (n + 1)) : (consShift (a.getLsbD n) a).toInt = a.toInt / 2 := by
  rw [toInt_eq_toNat_sub_top, toInt_eq_toNat_sub_top a, getLsbD_consShift_top, toNat_consShift, pow_succ]
  cases a.getLsbD n with
  | false => simp
  | true => simp; omega

/-! ### The two shared operations -/

/-- The flags of LSL and ROL (rules R111, R113): N, bit 7 of the result, is bit 6 of the operand. -/
theorem shiftLeftFlags_of_putShl {f : Sreg} {a : Byte} {b : Bool} {t : State}
    (h : t.sreg = f.putShl a (a.shiftConcat b)) : ShiftLeftFlags a (a.shiftConcat b) t := by
  have hn : negative (a.shiftConcat b) = a.getLsbD 6 := getLsbD_shiftConcat_succ (k := 6) a b (by decide)
  rw [ShiftLeftFlags, h]
  exact ⟨rfl, rfl, hn, rfl, rfl, isZero_eq _⟩

/-- `shr_flags` (10_state.md rule R31): S is C, for V is N turned round by C. -/
theorem shiftRightFlags_of_putShr {r : Byte} {c0 : Bool} {s t : State} (h : t.sreg = s.sreg.putShr r c0) :
    ShiftRightFlags r c0 s t := by
  have hs : signTest (negative r) (negative r ^^ c0) = c0 := by simp [signTest]
  rw [ShiftRightFlags, h]
  exact ⟨rfl, rfl, rfl, hs, isZero_eq r, rfl⟩

/-- A shift left completes: each bit moves up one place, `b` enters, and the value is doubled modulo 256. -/
theorem shiftLeft_outcome (d : RegNum) (b : Bool) (s : State) :
    ∃ t, shiftLeft d b s = .next t ∧ (∀ k, k < 7 → (t.x d).getLsbD (k + 1) = (s.x d).getLsbD k)
      ∧ (t.x d).getLsbD 0 = b ∧ (t.x d).toNat = (2 * (s.x d).toNat + b.toNat) % 256
      ∧ ShiftLeftFlags (s.x d) (t.x d) t ∧ KeepsRest [d] s t := by
  refine ⟨_, rfl, ?_⟩
  rw [State.writeback_x, if_pos rfl, regOperand, extractLsb'_append_ofBool (s.x d) b]
  exact ⟨fun k => getLsbD_shiftConcat_succ _ b, getLsbD_shiftConcat_zero _ b, toNat_shiftConcat_eq_two_mul _ b,
    shiftLeftFlags_of_putShl rfl, s.writeback_keepsRest _ _ _ rfl rfl⟩

/-- A shift right completes: each bit moves down one place and `b` enters. What that is as a value depends on `b`. -/
theorem shiftRight_outcome (d : RegNum) (b : Bool) (s : State) :
    ∃ t, shiftRight d b s = .next t ∧ (∀ k, k < 7 → (t.x d).getLsbD k = (s.x d).getLsbD (k + 1))
      ∧ (t.x d).getLsbD 7 = b ∧ t.x d = consShift b (s.x d)
      ∧ ShiftRightFlags (t.x d) ((s.x d).getLsbD 0) s t ∧ KeepsRest [d] s t := by
  refine ⟨_, rfl, ?_⟩
  rw [State.writeback_x, if_pos rfl, regOperand, ofBool_append_extractLsb']
  exact ⟨fun k => getLsbD_consShift_of_lt b _, getLsbD_consShift_top b _, rfl, shiftRightFlags_of_putShr rfl,
    s.writeback_keepsRest _ _ _ rfl rfl⟩

/-! ### The five instructions -/

theorem exec_lsl_eq_shiftLeft (d : RegNum) (s : State) : exec (.lsl d) s = shiftLeft d false s := rfl

theorem exec_rol_eq_shiftLeft (d : RegNum) (s : State) : exec (.rol d) s = shiftLeft d s.sreg.c s := rfl

theorem exec_lsr_eq_shiftRight (d : RegNum) (s : State) : exec (.lsr d) s = shiftRight d false s := rfl

theorem exec_ror_eq_shiftRight (d : RegNum) (s : State) : exec (.ror d) s = shiftRight d s.sreg.c s := rfl

theorem exec_asr_eq_shiftRight (d : RegNum) (s : State) : exec (.asr d) s = shiftRight d ((s.x d).getLsbD 7) s := rfl

/-- Settles O27: the row of ADD with both fields d, and a shift left with 0 entering. -/
theorem lslShiftsZeroInAndBitSevenOut : Obligations.LslShiftsZeroInAndBitSevenOut := by
  refine ⟨fun d => ?_, fun d s => ?_⟩
  · rw [encode_lsl_eq_add]
    exact encodedRR_add d d
  · rw [exec_lsl_eq_shiftLeft]
    obtain ⟨t, hexec, hbits, hin, hval, hflags, hkeep⟩ := shiftLeft_outcome d false s
    exact ⟨t, hexec, hbits, hin, hval, hflags, hkeep, rfl⟩

/-- Settles O28: a shift right with 0 entering, so that the value is halved, N is 0 and V is C. -/
theorem lsrShiftsZeroInAndBitZeroOut : Obligations.LsrShiftsZeroInAndBitZeroOut := by
  refine ⟨encodedR1_lsr, fun d s => ?_⟩
  rw [exec_lsr_eq_shiftRight]
  obtain ⟨t, hexec, hbits, htop, hx, hflags, hkeep⟩ := shiftRight_outcome d false s
  have hval : (t.x d).toNat = (s.x d).toNat / 2 := by simp [hx, toNat_consShift]
  have ⟨_, hn, hv, _⟩ := hflags
  rw [htop] at hn hv
  exact ⟨t, hexec, hbits, htop, hval, hn, hv.trans (Bool.false_xor _), hflags, hkeep, rfl⟩

/-- Settles O29: the row of ADC with both fields d, and a shift left with the carry before entering. -/
theorem rolShiftsCarryInAndBitSevenOut : Obligations.RolShiftsCarryInAndBitSevenOut := by
  refine ⟨fun d => ?_, fun d s => ?_⟩
  · rw [encode_rol_eq_adc]
    exact encodedRR_adc d d
  · rw [exec_rol_eq_shiftLeft]
    obtain ⟨t, hexec, hbits, hin, hval, hflags, hkeep⟩ := shiftLeft_outcome d s.sreg.c s
    exact ⟨t, hexec, hbits, hin, hval, hflags, hkeep, rfl⟩

/-- Settles O30: a shift right with the carry before entering. -/
theorem rorShiftsCarryInAndBitZeroOut : Obligations.RorShiftsCarryInAndBitZeroOut := by
  refine ⟨encodedR1_ror, fun d s => ?_⟩
  rw [exec_ror_eq_shiftRight]
  obtain ⟨t, hexec, hbits, htop, -, hflags, hkeep⟩ := shiftRight_outcome d s.sreg.c s
  exact ⟨t, hexec, hbits, htop, hflags, hkeep, rfl⟩

/-- Settles O31: a shift right with bit 7 entering, which halves the signed value. -/
theorem asrKeepsBitSevenAndHalvesTheSignedValue : Obligations.AsrKeepsBitSevenAndHalvesTheSignedValue := by
  refine ⟨encodedR1_asr, fun d s => ?_⟩
  rw [exec_asr_eq_shiftRight]
  obtain ⟨t, hexec, hbits, htop, hx, hflags, hkeep⟩ := shiftRight_outcome d ((s.x d).getLsbD 7) s
  have hval : (t.x d).toInt = (s.x d).toInt / 2 := by rw [hx, toInt_consShift_top (s.x d)]
  exact ⟨t, hexec, hbits, htop, hval, hflags, hkeep, rfl⟩

end Sys2Proof.Machine
end

section
/-! PROOFS. SER and CLR (42_set_clear.md rule R120): a constant loaded by one writeback. SER has the words of format RI with
all ones in the constant's place (30_encoding.md rule R63), CLR those of EOR Rd, Rd (rule R70). -/

open Claims

namespace Sys2Proof

/-! ### The words of SER (rules R63, R71) -/

theorem decode_of_ser_opcode {w : Word} (h : w &&& 0xFF0F#16 = 0xEF0F#16) : decode w = some (.ser (fieldUpperD w)) := by
  simp (disch := decide) only [decode, and_mask_ne h, if_false, if_pos h]

/-- The two halves of a constant of all ones are the eight fixed bits of SER's row. -/
theorem rowRI_allOnes (o dddd : BitVec 4) : rowRI o dddd 0xFF#8 = o ++ 0b1111#4 ++ dddd ++ 0b1111#4 := rfl

/-- SER's test looks at every bit of its row but the register field. -/
theorem rowRI_allOnes_and_mask (o dddd : BitVec 4) : rowRI o dddd 0xFF#8 &&& 0xFF0F#16 = rowRI o 0#4 0xFF#8 := by
  change (o ++ 0b1111#4 ++ dddd ++ 0b1111#4) &&& (BitVec.allOnes 4 ++ BitVec.allOnes 4 ++ 0#4 ++ BitVec.allOnes 4)
    = o ++ 0b1111#4 ++ 0#4 ++ 0b1111#4
  simp only [BitVec.and_append, BitVec.and_allOnes, BitVec.and_zero]

theorem hasWord_ser {dddd : BitVec 4} {d : RegNum} (hd : d.val = 16 + dddd.toNat) :
    HasWord (.ser d) (rowRI 0b1110#4 dddd 0xFF#8) := by
  refine ⟨?_, ?_⟩
  · have hwf : (Instr.ser d).wellFormed = true := (isUpperReg_iff d).2 (by omega)
    rw [encode, if_pos hwf, encodeWord, encodeRI_eq_rowRI 0b1110#4 0xFF#8 hd]
  · rw [decode_of_ser_opcode (rowRI_allOnes_and_mask 0b1110#4 dddd), fieldUpperD_rowRI 0b1110#4 0xFF#8 hd]

theorem encode_ser_eq_none {d : RegNum} (hd : d.val < 16) : encode (.ser d) = none := by
  have hwf : ¬ (Instr.ser d).wellFormed = true := fun h => absurd ((isUpperReg_iff d).1 h) (by omega)
  rw [encode, if_neg hwf]

/-! ### The words of CLR (rule R70) -/

theorem encode_clr_eq_eor (d : RegNum) : encode (.clr d) = encode (.eor d d) := rfl

end Sys2Proof

namespace Sys2Proof.Machine

/-- An instruction that ends in a writeback completes with the result, the flags written and the frame, for flags that keep
I and T. -/
theorem writeback_outcome {out : Result} {s : State} {d : RegNum} {r : Byte} {f : Sreg}
    (h : out = .next (s.writeback d r f)) (hi : f.i = s.sreg.i) (ht : f.t = s.sreg.t) :
    ∃ t, out = .next t ∧ t.x d = r ∧ t.sreg = f ∧ KeepsRest [d] s t := by
  have hx : (s.writeback d r f).x d = r := by rw [State.writeback_x, if_pos rfl]
  exact ⟨_, h, hx, rfl, s.writeback_keepsRest d r f hi ht⟩

/-- Settles O32: the row of SER, and a writeback of 0xFF with the flags as they were. The range of `d` bounds the words
only: the outcome holds for every register. -/
theorem serLoadsAllOnesAndWritesNoFlag : Obligations.SerLoadsAllOnesAndWritesNoFlag := by
  refine ⟨fun dddd d hd => ?_, fun d hd => encode_ser_eq_none hd, fun d s _ => ?_⟩
  · rw [← rowRI_allOnes]
    exact hasWord_ser hd
  · obtain ⟨t, hexec, hx, hsreg, hkeep⟩ := writeback_outcome (exec_ser d s) rfl rfl
    exact ⟨t, hexec, hx, hsreg, hkeep, rfl⟩

/-- Settles O33: the row of EOR with both fields d, and a writeback of 0x00 with the constant flags of rule R122. -/
theorem clrLoadsZeroWithConstantFlags : Obligations.ClrLoadsZeroWithConstantFlags := by
  refine ⟨fun d => ?_, fun d s => ?_⟩
  · rw [encode_clr_eq_eor]
    exact encodedRR_eor d d
  · obtain ⟨t, hexec, hx, hsreg, hkeep⟩ := writeback_outcome (exec_clr d s) (Sreg.putClr_i _) (Sreg.putClr_t _)
    exact ⟨t, hexec, hx, hsreg, hkeep, rfl⟩

end Sys2Proof.Machine
end

section
/-! PROOFS. INC and DEC (43_inc_dec.md rule R130): format R1 (30_encoding.md rule R64), and one writeback with the flags of
10_state.md rule R33. The two differ only in the result and in the value of it that sets V. -/

open Claims

namespace Sys2Proof

/-! ### The words of INC and DEC (rules R64, R71) -/

theorem decode_of_inc_opcode {w : Word} (h : w &&& 0xFE0F#16 = 0x9403#16) : decode w = some (.inc (fieldD w)) := by
  simp (disch := decide) only [decode, and_mask_ne h, if_false, if_pos h]

theorem decode_of_dec_opcode {w : Word} (h : w &&& 0xFE0F#16 = 0x940A#16) : decode w = some (.dec (fieldD w)) := by
  simp (disch := decide) only [decode, and_mask_ne h, if_false, if_pos h]

theorem encodedR1_inc : EncodedR1 0b0011#4 .inc :=
  encodedR1_of_decode (fun _ => rfl) (fun _ => rfl) fun _ => decode_of_inc_opcode

theorem encodedR1_dec : EncodedR1 0b1010#4 .dec :=
  encodedR1_of_decode (fun _ => rfl) (fun _ => rfl) fun _ => decode_of_dec_opcode

end Sys2Proof

namespace Sys2Proof.Machine

/-! ### The result that overflows, from the operand it comes from -/

theorem add_one_eq_0x80_iff (a : Byte) : a + 1#8 = 0x80#8 ↔ a = 0x7F#8 := (eq_sub_iff_add_eq (b := 0x80#8)).symm

theorem sub_one_eq_0x7F_iff (a : Byte) : a - 1#8 = 0x7F#8 ↔ a = 0x80#8 := sub_eq_iff_eq_add (c := 0x7F#8)

/-! ### The outcome -/

/-- The flags of rule R33, where V is set by the result `limit`, which the operand `last` alone gives: V in both forms, and
C and H kept. -/
theorem incDec_outcome {out : Result} {s : State} {d : RegNum} {r limit last : Byte}
    (h : out = .next (s.writeback d r (s.sreg.putIncDec r (r == limit)))) (hlast : r = limit ↔ s.x d = last) :
    ∃ t, out = .next t ∧ t.x d = r
      ∧ t.sreg.v = decide (t.x d = limit) ∧ t.sreg.v = decide (s.x d = last)
      ∧ t.sreg.n = (t.x d).getLsbD 7 ∧ t.sreg.z = decide (t.x d = 0x00#8) ∧ t.sreg.s = (t.sreg.n ^^ t.sreg.v)
      ∧ t.sreg.c = s.sreg.c ∧ t.sreg.h = s.sreg.h ∧ KeepsRest [d] s t := by
  obtain ⟨t, hout, hx, hsreg, hkeep⟩ := writeback_outcome h (Sreg.putIncDec_i _ _ _) (Sreg.putIncDec_t _ _ _)
  have hv : t.sreg.v = decide (r = limit) := by
    rw [hsreg]
    exact beq_eq_decide r limit
  have hvlast : t.sreg.v = decide (s.x d = last) := hv.trans (decide_eq_decide.2 hlast)
  refine ⟨t, hout, hx, ?_, hvlast, ?_⟩
  · rw [hx, hv]
  · rw [hx, hsreg]
    exact ⟨rfl, isZero_eq r, rfl, rfl, rfl, hkeep⟩

/-- Settles O34: the row of INC, and a writeback of one more, which is 0x80 for the operand 0x7F only. -/
theorem incAddsOneAndKeepsCarry : Obligations.IncAddsOneAndKeepsCarry := by
  refine ⟨encodedR1_inc, fun d s => ?_⟩
  obtain ⟨t, hexec, hx, hv, hvlast, hn, hz, hs, hc, hh, hkeep⟩ :=
    incDec_outcome (exec_inc d s) (add_one_eq_0x80_iff (s.x d))
  have hval : (t.x d).toNat = ((s.x d).toNat + 1) % 256 := by rw [hx, BitVec.toNat_add]; rfl
  exact ⟨t, hexec, hval, hv, hvlast, hn, hz, hs, hc, hh, hkeep, rfl⟩

/-- Settles O35: the row of DEC, and a writeback of one less, which is 0x7F for the operand 0x80 only. Modulo 256 one less
is 255 more. -/
theorem decSubtractsOneAndKeepsCarry : Obligations.DecSubtractsOneAndKeepsCarry := by
  refine ⟨encodedR1_dec, fun d s => ?_⟩
  obtain ⟨t, hexec, hx, hv, hvlast, hn, hz, hs, hc, hh, hkeep⟩ :=
    incDec_outcome (exec_dec d s) (sub_one_eq_0x7F_iff (s.x d))
  have hval : (t.x d).toNat = ((s.x d).toNat + 255) % 256 := by rw [hx, BitVec.toNat_sub, Nat.add_comm]; rfl
  exact ⟨t, hexec, hval, hv, hvlast, hn, hz, hs, hc, hh, hkeep, rfl⟩

end Sys2Proof.Machine
end

section
/-! PROOFS. ADD, ADC, SUB, SUBI, SBC and SBCI (44_add_sub.md rule R140): formats RR and RI, and one writeback of an `add8` or
`sub8` of 10_state.md rules R29, R30 with its six flags. The plain Z of SUB and SUBI is the sticky Z of SBC and SBCI with
the flag before taken as set, so that one outcome serves all four subtractions. -/

open Claims

namespace Sys2Proof

/-! ### The words (rules R61, R62, R71) -/

theorem decode_of_sub_opcode {w : Word} (h : w &&& 0xFC00#16 = 0x1800#16) :
    decode w = some (.sub (fieldD w) (fieldR w)) := by
  simp (disch := decide) only [decode, and_mask_ne h, if_false, if_pos h]

theorem decode_of_sbc_opcode {w : Word} (h : w &&& 0xFC00#16 = 0x0800#16) :
    decode w = some (.sbc (fieldD w) (fieldR w)) := by
  simp only [decode, if_pos h]

theorem decode_of_subi_opcode {w : Word} (h : w &&& 0xF000#16 = 0x5000#16) :
    decode w = some (.subi (fieldUpperD w) (fieldK8 w)) := by
  simp (disch := decide) only [decode, and_mask_ne h, if_false, if_pos h]

theorem decode_of_sbci_opcode {w : Word} (h : w &&& 0xF000#16 = 0x4000#16) :
    decode w = some (.sbci (fieldUpperD w) (fieldK8 w)) := by
  simp (disch := decide) only [decode, and_mask_ne h, if_false, if_pos h]

theorem encodedRR_sub : EncodedRR 0b000110#6 .sub :=
  encodedRR_of_decode (fun _ _ => rfl) (fun _ _ => rfl) fun _ => decode_of_sub_opcode

theorem encodedRR_sbc : EncodedRR 0b000010#6 .sbc :=
  encodedRR_of_decode (fun _ _ => rfl) (fun _ _ => rfl) fun _ => decode_of_sbc_opcode

theorem encodedRI_subi : EncodedRI 0b0101#4 .subi :=
  encodedRI_of_decode (fun _ _ => rfl) (fun _ _ => rfl) fun _ => decode_of_subi_opcode

theorem encodedRI_sbci : EncodedRI 0b0100#4 .sbci :=
  encodedRI_of_decode (fun _ _ => rfl) (fun _ _ => rfl) fun _ => decode_of_sbci_opcode

end Sys2Proof

namespace Sys2Proof.Machine

/-! ### The subtraction as a comparison, and its Z -/

/-- C is set when more is subtracted than there is. -/
theorem sub8_c_eq_lt (a b : Byte) (c : Bool) : (sub8 a b c).c = decide (a.toNat < b.toNat + c.toNat) :=
  decide_eq_decide.2 (by omega)

/-- H is the same comparison of the low nibbles. -/
theorem sub8_h_eq_lt (a b : Byte) (c : Bool) : (sub8 a b c).h = decide (a.toNat % 16 < b.toNat % 16 + c.toNat) := by
  rw [sub8_h_eq, decide_eq_decide]
  omega

/-- The sticky Z with the flag before set is the plain Z. -/
theorem sub8Sticky_true (a b : Byte) (c : Bool) : sub8Sticky a b c true = sub8 a b c := by
  rw [sub8Sticky, Bool.and_true]

/-! ### The outcomes -/

theorem addOutcome_writeback (d : RegNum) (a b : Byte) (c : Bool) (s : State) :
    AddOutcome d a b c s (.next (s.writeback d (add8 a b c).r (s.sreg.putAlu8 (add8 a b c)))) := by
  obtain ⟨t, hout, hx, hsreg, hkeep⟩ := writeback_outcome (s := s) (d := d) (r := (add8 a b c).r) rfl
    (Sreg.putAlu8_i _ (add8 a b c)) (Sreg.putAlu8_t _ _)
  refine ⟨t, _, hout, hx, add8_r_toNat a b c, ?_⟩
  rw [hsreg]
  exact ⟨rfl, add8_h_eq a b c, rfl, rfl, isZero_eq _, rfl, hkeep⟩

theorem subOutcome_writeback (d : RegNum) (a b : Byte) (c z : Bool) (s : State) :
    SubOutcome d a b c z s (.next (s.writeback d (sub8Sticky a b c z).r (s.sreg.putAlu8 (sub8Sticky a b c z)))) := by
  obtain ⟨t, hout, hx, hsreg, hkeep⟩ := writeback_outcome (s := s) (d := d) (r := (sub8Sticky a b c z).r) rfl
    (Sreg.putAlu8_i _ (sub8Sticky a b c z)) (Sreg.putAlu8_t _ _)
  refine ⟨t, _, hout, hx, sub8_r_toNat a b c, ?_⟩
  rw [hsreg, sub8Sticky_eq]
  exact ⟨sub8_c_eq_lt a b c, sub8_h_eq_lt a b c, rfl, rfl, rfl, rfl, hkeep⟩

/-- The subtraction with the plain Z. -/
theorem subOutcome_writeback_plain (d : RegNum) (a b : Byte) (c : Bool) (s : State) :
    SubOutcome d a b c true s (.next (s.writeback d (sub8 a b c).r (s.sreg.putAlu8 (sub8 a b c)))) := by
  rw [← sub8Sticky_true]
  exact subOutcome_writeback d a b c true s

/-! ### The instructions -/

/-- Settles O36: the two rows, and the writeback of `add8`, of which ADD and ADC are the cases of the carry added. -/
theorem addAndAdcAddTwoRegisters : Obligations.AddAndAdcAddTwoRegisters := by
  refine ⟨encodedRR_add, encodedRR_adc, fun d r s => ⟨?_, ?_, rfl, rfl⟩⟩
  · rw [exec_add]
    exact addOutcome_writeback d _ _ false s
  · rw [exec_adc]
    exact addOutcome_writeback d _ _ s.sreg.c s

/-- Settles O37: the two rows, and the writeback of `sub8` without a borrow. The range of `d` bounds SUBI's words only: its
outcome holds for every register. -/
theorem subAndSubiSubtractWithoutBorrow : Obligations.SubAndSubiSubtractWithoutBorrow := by
  refine ⟨encodedRR_sub, encodedRI_subi, fun d r s => ⟨?_, rfl⟩, fun d k s _ => ⟨?_, rfl⟩⟩
  · rw [exec_sub]
    exact subOutcome_writeback_plain d _ _ false s
  · rw [exec_subi]
    exact subOutcome_writeback_plain d _ k false s

/-- Settles O38: as O37, with the borrow and the Z from the flags before. -/
theorem sbcAndSbciSubtractWithBorrowAndStickyZero : Obligations.SbcAndSbciSubtractWithBorrowAndStickyZero := by
  refine ⟨encodedRR_sbc, encodedRI_sbci, fun d r s => ⟨?_, rfl⟩, fun d k s _ => ⟨?_, rfl⟩⟩
  · rw [exec_sbc]
    exact subOutcome_writeback d _ _ s.sreg.c s.sreg.z s
  · rw [exec_sbci]
    exact subOutcome_writeback d _ k s.sreg.c s.sreg.z s

end Sys2Proof.Machine
end

section
/-! PROOFS. Format WI (30_encoding.md rule R65): its two opcode fields read as one of eight bits, the fields after them
as those of formats RR and RI; and the words of ADIW and SBIW. -/

open Claims

namespace Sys2Proof

/-! ### Format WI (rule R65) -/

theorem isPairLow_iff (dl : RegNum) : isPairLow dl = true ↔ dl = 24 ∨ dl = 26 ∨ dl = 28 ∨ dl = 30 := by
  simp [isPairLow, or_assoc]

theorem isPairLow_of_val {dd : BitVec 2} {dl : RegNum} (hdl : dl.val = 24 + 2 * dd.toNat) : isPairLow dl = true := by
  have hdd := dd.isLt
  simp only [isPairLow_iff, Fin.ext_iff, Fin.coe_ofNat_eq_mod]
  omega

theorem rowWI_and_mask (sel : BitVec 1) (dd : BitVec 2) (k : BitVec 6) :
    rowWI sel dd k &&& 0xFF00#16 = rowWI sel 0#2 0#6 :=
  append_fields_and_mask (0b1001011#7 ++ sel) _ dd _

theorem rowWI_fields (sel : BitVec 1) (dd : BitVec 2) (k : BitVec 6) :
    (rowWI sel dd k).extractLsb' 6 2 = k.extractLsb' 4 2 ∧ (rowWI sel dd k).extractLsb' 4 2 = dd
      ∧ (rowWI sel dd k).extractLsb' 0 4 = k.extractLsb' 0 4 :=
  extractLsb'_append_fields (0b1001011#7 ++ sel) _ dd _

theorem fieldPairLow_rowWI (sel : BitVec 1) {dd : BitVec 2} (k : BitVec 6) {dl : RegNum}
    (hdl : dl.val = 24 + 2 * dd.toNat) : fieldPairLow (rowWI sel dd k) = dl := by
  obtain ⟨-, hdd, -⟩ := rowWI_fields sel dd k
  rw [fieldPairLow, hdd, ← hdl]
  exact Fin.ofNat_val_eq_self dl

theorem fieldK6_rowWI (sel : BitVec 1) (dd : BitVec 2) (k : BitVec 6) : fieldK6 (rowWI sel dd k) = k := by
  obtain ⟨hhigh, -, hlow⟩ := rowWI_fields sel dd k
  have hk : k.extractLsb' 4 2 ++ k.extractLsb' 0 4 = k := extractLsb'_append_extractLsb'_self (n := 2) (m := 4) k
  rw [fieldK6, hhigh, hlow, hk]

theorem encodeWI_eq_rowWI (sel : BitVec 1) {dd : BitVec 2} (k : BitVec 6) {dl : RegNum}
    (hdl : dl.val = 24 + 2 * dd.toNat) : encodeWI sel dl k = rowWI sel dd k := by
  have hbits : pairBits dl = dd := by simp [pairBits, hdl]
  rw [encodeWI, rowWI, hbits]

/-- As `encodedRI_of_decode`, for format WI: the encoder takes the four pairs and refuses every other register. -/
theorem encodedWI_of_decode {sel : BitVec 1} {mk : RegNum → BitVec 6 → Instr}
    (hwf : ∀ dl k, (mk dl k).wellFormed = isPairLow dl) (henc : ∀ dl k, encodeWord (mk dl k) = encodeWI sel dl k)
    (hdec : ∀ w, w &&& 0xFF00#16 = rowWI sel 0#2 0#6 → decode w = some (mk (fieldPairLow w) (fieldK6 w))) :
    EncodedWI sel mk := by
  refine ⟨fun dd k dl hdl => ⟨?_, ?_⟩, fun dl k h24 h26 h28 h30 => ?_⟩
  · rw [encode, if_pos ((hwf dl k).trans (isPairLow_of_val hdl)), henc, encodeWI_eq_rowWI sel k hdl]
  · rw [hdec _ (rowWI_and_mask sel dd k), fieldPairLow_rowWI sel k hdl, fieldK6_rowWI]
  · have hother : ¬ isPairLow dl = true := by simp [isPairLow_iff, h24, h26, h28, h30]
    rw [encode, if_neg (hwf dl k ▸ hother)]

/-! ### The words of ADIW and SBIW (rule R71) -/

theorem decode_of_adiw_opcode {w : Word} (h : w &&& 0xFF00#16 = 0x9600#16) :
    decode w = some (.adiw (fieldPairLow w) (fieldK6 w)) := by
  simp (disch := decide) only [decode, and_mask_ne h, if_false, if_pos h]

theorem decode_of_sbiw_opcode {w : Word} (h : w &&& 0xFF00#16 = 0x9700#16) :
    decode w = some (.sbiw (fieldPairLow w) (fieldK6 w)) := by
  simp (disch := decide) only [decode, and_mask_ne h, if_false, if_pos h]

theorem encodedWI_adiw : EncodedWI 0#1 .adiw :=
  encodedWI_of_decode (fun _ _ => rfl) (fun _ _ => rfl) fun _ => decode_of_adiw_opcode

theorem encodedWI_sbiw : EncodedWI 1#1 .sbiw :=
  encodedWI_of_decode (fun _ _ => rfl) (fun _ _ => rfl) fun _ => decode_of_sbiw_opcode

end Sys2Proof
end

section
/-! PROOFS. ADIW and SBIW (45_word_arith.md rule R150): one writeback of a pair with the five flags of 10_state.md rule R34,
whose forms are those of `adiw16` and `sbiw16`. -/

namespace Sys2Proof.Machine

/-- The partner of a pair's low register is the only register numbered one higher (10_state.md rule R22). -/
theorem eq_pairHigh {dl dh : RegNum} (hdl : isPairLow dl = true) (hdh : dh.val = dl.val + 1) : dh = pairHigh dl :=
  Fin.ext (hdh.trans (pairHigh_val dl hdl).symm)

/-- As `writeback_outcome`, for an instruction that ends in a writeback of a pair. -/
theorem writebackPair_outcome {out : Result} {s : State} {dl : RegNum} {r : Word} {f : Sreg}
    (h : out = .next (s.writebackPair dl r f)) (hi : f.i = s.sreg.i) (ht : f.t = s.sreg.t) :
    ∃ t, out = .next t ∧ t.x dl = r.extractLsb' 0 8 ∧ t.x (pairHigh dl) = r.extractLsb' 8 8 ∧ t.sreg = f
      ∧ KeepsRest [dl, pairHigh dl] s t := by
  have hlow : (s.writebackPair dl r f).x dl = r.extractLsb' 0 8 := by rw [State.writebackPair_x, if_pos rfl]
  have hhigh : (s.writebackPair dl r f).x (pairHigh dl) = r.extractLsb' 8 8 := by
    rw [State.writebackPair_x, if_neg (pairHigh_ne dl).symm, if_pos rfl]
  exact ⟨_, h, hlow, hhigh, rfl, s.writebackPair_keepsRest dl r f hi ht⟩

/-- Settles O41: the row of ADIW, and a writeback of `adiw16` to the pair, H kept. -/
theorem adiwAddsAConstantToAPair : Obligations.AdiwAddsAConstantToAPair := by
  refine ⟨encodedWI_adiw, fun dl dh k s p hdl hdh hp => ?_⟩
  obtain rfl : dh = pairHigh dl := eq_pairHigh hdl hdh
  obtain rfl : p = s.pair dl := hp
  obtain ⟨t, hexec, hlow, hhigh, hsreg, hkeep⟩ :=
    writebackPair_outcome (exec_adiw dl k s) (Sreg.putAlu16_i _ _) (Sreg.putAlu16_t _ _)
  refine ⟨t, _, hexec, hlow, hhigh, adiw16_r_toNat _ k, ?_⟩
  rw [hsreg]
  exact ⟨adiw16_c_eq _ k, rfl, rfl, beq_eq_decide _ _, rfl, rfl, hkeep, rfl⟩

/-- Settles O42: as O41, with the row of SBIW and `sbiw16`. -/
theorem sbiwSubtractsAConstantFromAPair : Obligations.SbiwSubtractsAConstantFromAPair := by
  refine ⟨encodedWI_sbiw, fun dl dh k s p hdl hdh hp => ?_⟩
  obtain rfl : dh = pairHigh dl := eq_pairHigh hdl hdh
  obtain rfl : p = s.pair dl := hp
  obtain ⟨t, hexec, hlow, hhigh, hsreg, hkeep⟩ :=
    writebackPair_outcome (exec_sbiw dl k s) (Sreg.putAlu16_i _ _) (Sreg.putAlu16_t _ _)
  refine ⟨t, _, hexec, hlow, hhigh, sbiw16_r_toNat _ k, ?_⟩
  rw [hsreg]
  exact ⟨sbiw16_c_eq _ k, rfl, rfl, beq_eq_decide _ _, rfl, rfl, hkeep, rfl⟩

end Sys2Proof.Machine
end

section
/-! PROOFS. COM and NEG (46_complement.md rule R160): format R1 (30_encoding.md rule R64), and one writeback each. COM
inverts the bits and its flags are those of a logical operation with C set. NEG is the subtraction `0x00 − Rd` of
10_state.md rule R30; the forms that rule R162 gives its C, H and V are those of `sub8` with the minuend 0x00. -/

open Claims

namespace Sys2Proof

/-! ### The words of COM and NEG (rules R64, R71) -/

theorem decode_of_com_opcode {w : Word} (h : w &&& 0xFE0F#16 = 0x9400#16) : decode w = some (.com (fieldD w)) := by
  simp (disch := decide) only [decode, and_mask_ne h, if_false, if_pos h]

theorem decode_of_neg_opcode {w : Word} (h : w &&& 0xFE0F#16 = 0x9401#16) : decode w = some (.neg (fieldD w)) := by
  simp (disch := decide) only [decode, and_mask_ne h, if_false, if_pos h]

theorem encodedR1_com : EncodedR1 0b0000#4 .com :=
  encodedR1_of_decode (fun _ => rfl) (fun _ => rfl) fun _ => decode_of_com_opcode

theorem encodedR1_neg : EncodedR1 0b0001#4 .neg :=
  encodedR1_of_decode (fun _ => rfl) (fun _ => rfl) fun _ => decode_of_neg_opcode

end Sys2Proof

namespace Sys2Proof.Machine

/-! ### COM (rule R161) -/

theorem not_eq_zero_iff (a : Byte) : ~~~a = 0x00#8 ↔ a = 0xFF#8 := BitVec.not_eq_comm (y := 0x00#8)

/-- Settles O43: the row of COM, and a writeback of the inverted bits, which are all 0 for the operand 0xFF only. -/
theorem comInvertsAndSetsCarry : Obligations.ComInvertsAndSetsCarry := by
  refine ⟨encodedR1_com, fun d s => ?_⟩
  obtain ⟨t, hexec, hx, hsreg, hkeep⟩ := writeback_outcome (exec_com d s) (Sreg.putCom_i _ _) (Sreg.putCom_t _ _)
  have hbits : ∀ k, k < 8 → (~~~s.x d).getLsbD k = !(s.x d).getLsbD k := fun k hk => by
    rw [BitVec.getLsbD_not, decide_eq_true hk, Bool.true_and]
  have hz : isZero (~~~s.x d) = decide (~~~s.x d = 0x00#8) := isZero_eq _
  have hzop : isZero (~~~s.x d) = decide (s.x d = 0xFF#8) := hz.trans (decide_eq_decide.2 (not_eq_zero_iff _))
  have hs : signTest (negative (~~~s.x d)) false = (~~~s.x d).getLsbD 7 := Bool.xor_false _
  refine ⟨t, hexec, ?_⟩
  rw [hx, hsreg]
  exact ⟨hbits, BitVec.toNat_not, rfl, rfl, rfl, hz, hzop, hs, rfl, hkeep, rfl⟩

/-! ### NEG's result, the subtraction from 0x00 (rules R30, R162) -/

/-- Rule R162's `diff mod 256` is the two's complement: added to the operand it gives 0x00. -/
theorem sub8_zero_r (a : Byte) : (sub8 0x00#8 a false).r = -a := by
  have hsum : (sub8 0x00#8 a false).r + a + 0#8 = 0#8 := sub8_isSum 0x00#8 a false
  rw [BitVec.add_zero] at hsum
  exact eq_neg_of_add_eq_zero_left hsum

theorem sub8_zero_r_toNat (a : Byte) : ((sub8 0x00#8 a false).r.toNat : Int) = (0 - (a.toNat : Int)) % 256 := by
  rw [sub8_r_toNat, Bool.toNat_false, Nat.cast_zero, sub_zero]
  rfl

theorem sub8_zero_r_eq_zero_iff (a : Byte) : (sub8 0x00#8 a false).r = 0x00#8 ↔ a = 0x00#8 := by
  rw [sub8_zero_r]
  exact neg_eq_zero

/-- 0x80 is its own two's complement, and no other byte has it. -/
theorem sub8_zero_r_eq_0x80_iff (a : Byte) : (sub8 0x00#8 a false).r = 0x80#8 ↔ a = 0x80#8 := by
  rw [sub8_zero_r]
  exact neg_eq_iff_eq_neg (b := 0x80#8)

/-! ### NEG's flags -/

/-- Only 0x00 is subtracted from 0x00 without a borrow. -/
theorem sub8_zero_c (a : Byte) : (sub8 0x00#8 a false).c = decide (a ≠ 0x00#8) := by
  have ha : a = 0x00#8 ↔ a.toNat = 0 := BitVec.toNat_inj.symm
  rw [sub8_c_eq_lt, decide_eq_decide, ne_eq, ha, Bool.toNat_false]
  exact Nat.pos_iff_ne_zero

theorem sub8_zero_c_eq_result (a : Byte) :
    (sub8 0x00#8 a false).c = decide ((sub8 0x00#8 a false).r ≠ 0x00#8) :=
  (sub8_zero_c a).trans (decide_eq_decide.2 (not_congr (sub8_zero_r_eq_zero_iff a).symm))

/-- H is the same borrow, of the low nibbles. -/
theorem sub8_zero_h (a : Byte) : (sub8 0x00#8 a false).h = decide (a.toNat % 16 ≠ 0) := by
  rw [sub8_h_eq_lt, decide_eq_decide, Bool.toNat_false]
  exact Nat.pos_iff_ne_zero

/-- The minuend's bit 3 being 0, there is a borrow out of the low nibble where the result or the operand has bit 3. -/
theorem sub8_zero_h_eq_bits (a : Byte) :
    (sub8 0x00#8 a false).h = ((sub8 0x00#8 a false).r.getLsbD 3 || a.getLsbD 3) := by
  rw [sub8_h_eq_carry, (sub8_isSum 0x00#8 a false).carry_succ_eq_bits (by decide)]
  generalize (sub8 0x00#8 a false).r.getLsbD 3 = r, a.getLsbD 3 = b
  revert r b; decide

/-- The signed negation leaves the range for −128 only. -/
theorem sub8_zero_v (a : Byte) : (sub8 0x00#8 a false).v = decide (a = 0x80#8) := by
  have ha : a = 0x80#8 ↔ a.toInt = -128 := BitVec.toInt_inj.symm
  have hlow : -128 ≤ a.toInt := a.le_toInt
  have hhigh : a.toInt < 128 := a.toInt_lt
  rw [sub8_v_eq_out_of_range, decide_eq_decide, ha, BitVec.toInt_zero, Bool.toNat_false]
  omega

theorem sub8_zero_v_eq_result (a : Byte) :
    (sub8 0x00#8 a false).v = decide ((sub8 0x00#8 a false).r = 0x80#8) :=
  (sub8_zero_v a).trans (decide_eq_decide.2 (sub8_zero_r_eq_0x80_iff a).symm)

theorem sub8_zero_z (a : Byte) : (sub8 0x00#8 a false).z = decide (a = 0x00#8) :=
  (sub8_z_eq _ _ _).trans (decide_eq_decide.2 (sub8_zero_r_eq_zero_iff a))

/-- The flags of rule R162 are those of rule R30 for the minuend 0x00. -/
theorem putNeg_eq_putAlu8 (f : Sreg) (a : Byte) :
    f.putNeg a (sub8 0x00#8 a false).r = f.putAlu8 (sub8 0x00#8 a false) := by
  have hc : ((sub8 0x00#8 a false).r != 0x00#8) = (sub8 0x00#8 a false).c := by
    rw [sub8_zero_c_eq_result, bne, beq_eq_decide, ← decide_not]
  have hv : ((sub8 0x00#8 a false).r == 0x80#8) = (sub8 0x00#8 a false).v := by
    rw [sub8_zero_v_eq_result, beq_eq_decide]
  rw [Sreg.putNeg, hc, hv, ← sub8_zero_h_eq_bits]
  rfl

/-! ### NEG (rule R162) -/

/-- NEG is the subtraction of the register from 0x00, without a borrow. -/
theorem exec_neg_eq_sub8 (d : RegNum) (s : State) :
    exec (.neg d) s
      = .next (s.writeback d (sub8 0x00#8 (s.x d) false).r (s.sreg.putAlu8 (sub8 0x00#8 (s.x d) false))) := by
  have hr : BitVec.ofInt 8 (0 - ((s.x d).toNat : Int)) = (sub8 0x00#8 (s.x d) false).r := by simp [sub8]
  rw [exec_neg, hr, putNeg_eq_putAlu8]

/-- Settles O44: the row of NEG, and the writeback of `sub8` from 0x00, each flag read from the result and from the
operand. -/
theorem negNegatesWithBorrowFlags : Obligations.NegNegatesWithBorrowFlags := by
  refine ⟨encodedR1_neg, fun d s => ?_⟩
  have hsub : SubOutcome d 0x00#8 (s.x d) false true s (exec (.neg d) s) := by
    rw [exec_neg_eq_sub8]
    exact subOutcome_writeback_plain d 0x00#8 (s.x d) false s
  obtain ⟨t, hexec, hx, hsreg, hkeep⟩ :=
    writeback_outcome (exec_neg_eq_sub8 d s) (Sreg.putAlu8_i _ _) (Sreg.putAlu8_t _ _)
  rw [hexec] at hsub
  refine ⟨t, hexec, ?_⟩
  rw [hx, hsreg]
  exact ⟨sub8_zero_r_toNat _, sub8_zero_c_eq_result _, sub8_zero_c _, sub8_zero_h_eq_bits _, sub8_zero_h _,
    sub8_zero_v_eq_result _, sub8_zero_v _, rfl, sub8_z_eq _ _ _, sub8_zero_z _, rfl, (sub8_zero_r_eq_0x80_iff _).2,
    hsub, hkeep, rfl⟩

end Sys2Proof.Machine
end

section
/-! PROOFS. The encoder and the decoder as inverses (30_encoding.md section 5). From an instruction: its operands are
fields of a word of its row, which the decoder answers. From a word: one that passes a test of the decoder is the row
with its own fields, so the encoder gives it back. -/

open Claims

namespace Sys2Proof

/-! ### From the instruction to the word -/

theorem encode_eq_some_iff (i : Instr) (w : Word) : encode i = some w ↔ i.wellFormed = true ∧ encodeWord i = w := by
  simp [encode]

theorem exists_hasWord_of_encodedRR {o : BitVec 6} {mk : RegNum → RegNum → Instr} (h : EncodedRR o mk) (d r : RegNum) :
    ∃ w, HasWord (mk d r) w :=
  ⟨_, h ⟨d⟩ ⟨r⟩⟩

theorem exists_hasWord_of_encodedR1 {f : BitVec 4} {mk : RegNum → Instr} (h : EncodedR1 f mk) (d : RegNum) :
    ∃ w, HasWord (mk d) w :=
  ⟨_, h ⟨d⟩⟩

/-- One of R16 to R31 is named by its four bits. -/
theorem val_eq_upperRegBits {d : RegNum} (hd : isUpperReg d = true) : d.val = 16 + (upperRegBits d).toNat := by
  have hlow := (isUpperReg_iff d).1 hd
  have hhigh := d.isLt
  simp only [upperRegBits, BitVec.toNat_ofNat]
  omega

theorem exists_hasWord_of_encodedRI {o : BitVec 4} {mk : RegNum → Byte → Instr} (h : EncodedRI o mk) {d : RegNum}
    (k : Byte) (hd : isUpperReg d = true) : ∃ w, HasWord (mk d k) w :=
  ⟨_, h.1 _ k d (val_eq_upperRegBits hd)⟩

/-- The low register of a pair is named by its two bits. -/
theorem val_eq_pairBits {dl : RegNum} (hdl : isPairLow dl = true) : dl.val = 24 + 2 * (pairBits dl).toNat := by
  rcases (isPairLow_iff dl).1 hdl with rfl | rfl | rfl | rfl <;> rfl

theorem exists_hasWord_of_encodedWI {sel : BitVec 1} {mk : RegNum → BitVec 6 → Instr} (h : EncodedWI sel mk)
    {dl : RegNum} (k : BitVec 6) (hdl : isPairLow dl = true) : ∃ w, HasWord (mk dl k) w :=
  ⟨_, h.1 _ k dl (val_eq_pairBits hdl)⟩

/-- Every well-formed instruction has a word, which decodes to its canonical form: the word of its row, for LSL, ROL
and CLR of the row of ADD, ADC and EOR (rule R70). -/
theorem exists_word_of_wellFormed (i : Instr) (h : i.wellFormed = true) :
    ∃ w, encode i = some w ∧ decode w = some i.canonical := by
  cases i with
  | and d r => exact exists_hasWord_of_encodedRR Machine.encodedRR_and d r
  | andi d k => exact exists_hasWord_of_encodedRI Machine.encodedRI_andi k h
  | or d r => exact exists_hasWord_of_encodedRR Machine.encodedRR_or d r
  | ori d k => exact exists_hasWord_of_encodedRI Machine.encodedRI_ori k h
  | eor d r => exact exists_hasWord_of_encodedRR Machine.encodedRR_eor d r
  | lsl d => exact exists_hasWord_of_encodedRR encodedRR_add d d
  | lsr d => exact exists_hasWord_of_encodedR1 encodedR1_lsr d
  | rol d => exact exists_hasWord_of_encodedRR encodedRR_adc d d
  | ror d => exact exists_hasWord_of_encodedR1 encodedR1_ror d
  | asr d => exact exists_hasWord_of_encodedR1 encodedR1_asr d
  | ser d => exact ⟨_, hasWord_ser (val_eq_upperRegBits h)⟩
  | clr d => exact exists_hasWord_of_encodedRR Machine.encodedRR_eor d d
  | inc d => exact exists_hasWord_of_encodedR1 encodedR1_inc d
  | dec d => exact exists_hasWord_of_encodedR1 encodedR1_dec d
  | add d r => exact exists_hasWord_of_encodedRR encodedRR_add d r
  | sub d r => exact exists_hasWord_of_encodedRR encodedRR_sub d r
  | subi d k => exact exists_hasWord_of_encodedRI encodedRI_subi k h
  | adc d r => exact exists_hasWord_of_encodedRR encodedRR_adc d r
  | sbc d r => exact exists_hasWord_of_encodedRR encodedRR_sbc d r
  | sbci d k => exact exists_hasWord_of_encodedRI encodedRI_sbci k h
  | adiw dl k => exact exists_hasWord_of_encodedWI encodedWI_adiw k h
  | sbiw dl k => exact exists_hasWord_of_encodedWI encodedWI_sbiw k h
  | com d => exact exists_hasWord_of_encodedR1 encodedR1_com d
  | neg d => exact exists_hasWord_of_encodedR1 encodedR1_neg d

/-- The bytes of a decoded word, and nothing after them, are that instruction's image. -/
theorem decodeBytes_of_decode {w : Word} {i : Instr} (h : decode w = some i) :
    decodeBytes [lowByte w, highByte w] = .ok (i, []) := by
  rw [decodeBytes, Machine.wordOfBytes_lowByte_highByte, h]

/-- Settles O8: the word of the instruction's row, and its two bytes. -/
theorem decodeReturnsWhatWasEncoded : Obligations.DecodeReturnsWhatWasEncoded := by
  intro i hi
  obtain ⟨w, henc, hdec⟩ := exists_word_of_wellFormed i hi
  exact ⟨w, henc, hdec, decodeBytes_of_decode hdec⟩

/-! ### From the word to the instruction -/

/-- A word cut into four fields and put together again. -/
theorem append_extractLsb'_fields {a b c e : Nat} (w : BitVec (a + b + c + e)) :
    w.extractLsb' (e + c + b) a ++ w.extractLsb' (e + c) b ++ w.extractLsb' e c ++ w.extractLsb' 0 e = w := by
  rw [BitVec.extractLsb'_append_extractLsb'_eq_extractLsb' rfl,
    BitVec.extractLsb'_append_extractLsb'_eq_extractLsb' rfl,
    BitVec.extractLsb'_append_extractLsb'_eq_extractLsb' (Nat.zero_add e).symm, BitVec.extractLsb'_eq_self]

/-- A word whose first field is `o` is `o` and three fields more. -/
theorem eq_append_fields_of_and_mask {a b c e : Nat} {w : BitVec (a + b + c + e)} {o : BitVec a}
    (h : w &&& (BitVec.allOnes a ++ 0#b ++ 0#c ++ 0#e) = o ++ 0#b ++ 0#c ++ 0#e) :
    ∃ (x : BitVec b) (y : BitVec c) (z : BitVec e), w = o ++ x ++ y ++ z := by
  rw [← append_extractLsb'_fields w, append_fields_and_mask] at h
  have ho : w.extractLsb' (e + c + b) a = o := by simpa only [BitVec.append_left_inj] using h
  exact ⟨_, _, _, by rw [← ho, append_extractLsb'_fields]⟩

/-- A word with `x` before and `z` after its middle field. -/
theorem eq_append_middle_of_and_mask {a b c : Nat} {w : BitVec (a + b + c)} {x : BitVec a} {z : BitVec c}
    (h : w &&& (BitVec.allOnes a ++ 0#b ++ BitVec.allOnes c) = x ++ 0#b ++ z) : ∃ y : BitVec b, w = x ++ y ++ z := by
  have hw : w.extractLsb' (c + b) a ++ w.extractLsb' c b ++ w.extractLsb' 0 c = w := by
    rw [BitVec.extractLsb'_append_extractLsb'_eq_extractLsb' rfl,
      BitVec.extractLsb'_append_extractLsb'_eq_extractLsb' (Nat.zero_add c).symm, BitVec.extractLsb'_eq_self]
  rw [← hw] at h
  simp only [BitVec.and_append, BitVec.and_allOnes, BitVec.and_zero] at h
  have hz : w.extractLsb' 0 c = z := by
    simpa only [BitVec.extractLsb'_append_eq_right] using congrArg (BitVec.extractLsb' 0 c) h
  have hx : w.extractLsb' (c + b) a = x := by simpa only [hz, BitVec.append_left_inj] using h
  exact ⟨_, by rw [← hx, ← hz, hw]⟩

/-- A word that passes the test of a row of format RR is encoded from its own fields, as are those of the other formats
below. -/
theorem encode_fields_of_encodedRR {o : BitVec 6} {mk : RegNum → RegNum → Instr} (h : EncodedRR o mk) {w : Word}
    (hw : w &&& 0xFC00#16 = rowRR o 0#5 0#5) : encode (mk (fieldD w) (fieldR w)) = some w := by
  obtain ⟨rhigh, d, rlow, rfl⟩ : ∃ (x : BitVec 1) (d : BitVec 5) (y : BitVec 4), w = o ++ x ++ d ++ y :=
    eq_append_fields_of_and_mask hw
  have hrow : o ++ rhigh ++ d ++ rlow = rowRR o d (rhigh ++ rlow) := by
    rw [rowRR, BitVec.extractLsb'_append_eq_left, BitVec.extractLsb'_append_eq_right]
  rw [hrow, fieldD_rowRR, fieldR_rowRR]
  exact (h d _).1

theorem fieldUpperD_val (w : Word) : (fieldUpperD w).val = 16 + (w.extractLsb' 4 4).toNat :=
  Nat.mod_eq_of_lt (by omega)

theorem encode_fields_of_encodedRI {o : BitVec 4} {mk : RegNum → Byte → Instr} (h : EncodedRI o mk) {w : Word}
    (hw : w &&& 0xF000#16 = rowRI o 0#4 0#8) : encode (mk (fieldUpperD w) (fieldK8 w)) = some w := by
  obtain ⟨khigh, dddd, klow, rfl⟩ : ∃ x dddd y : BitVec 4, w = o ++ x ++ dddd ++ y := eq_append_fields_of_and_mask hw
  have hrow : o ++ khigh ++ dddd ++ klow = rowRI o dddd (khigh ++ klow) := by
    rw [rowRI, BitVec.extractLsb'_append_eq_left, BitVec.extractLsb'_append_eq_right]
  obtain ⟨-, hdddd, -⟩ := rowRI_fields o dddd (khigh ++ klow)
  rw [hrow, fieldK8_rowRI]
  exact (h.1 dddd _ _ (by rw [fieldUpperD_val, hdddd])).1

theorem encode_ser_fields {w : Word} (hw : w &&& 0xFF0F#16 = 0xEF0F#16) : encode (.ser (fieldUpperD w)) = some w := by
  obtain ⟨dddd, rfl⟩ : ∃ dddd : BitVec 4, w = (0b1110#4 ++ 0b1111#4) ++ dddd ++ 0b1111#4 :=
    eq_append_middle_of_and_mask (a := 8) (b := 4) (c := 4) hw
  obtain ⟨-, hdddd, -⟩ := rowRI_fields 0b1110#4 dddd 0xFF#8
  rw [← rowRI_allOnes]
  exact (hasWord_ser (by rw [fieldUpperD_val, hdddd])).1

theorem encode_field_of_encodedR1 {f : BitVec 4} {mk : RegNum → Instr} (h : EncodedR1 f mk) {w : Word}
    (hw : w &&& 0xFE0F#16 = rowR1 f 0#5) : encode (mk (fieldD w)) = some w := by
  obtain ⟨d, rfl⟩ : ∃ d : BitVec 5, w = rowR1 f d :=
    eq_append_middle_of_and_mask (a := 7) (b := 5) (c := 4) hw
  rw [fieldD_rowR1]
  exact (h d).1

theorem fieldPairLow_val (w : Word) : (fieldPairLow w).val = 24 + 2 * (w.extractLsb' 4 2).toNat :=
  Nat.mod_eq_of_lt (by omega)

theorem encode_fields_of_encodedWI {sel : BitVec 1} {mk : RegNum → BitVec 6 → Instr} (h : EncodedWI sel mk) {w : Word}
    (hw : w &&& 0xFF00#16 = rowWI sel 0#2 0#6) : encode (mk (fieldPairLow w) (fieldK6 w)) = some w := by
  obtain ⟨khigh, dd, klow, rfl⟩ : ∃ (x dd : BitVec 2) (y : BitVec 4), w = (0b1001011#7 ++ sel) ++ x ++ dd ++ y :=
    eq_append_fields_of_and_mask hw
  have hrow : (0b1001011#7 ++ sel) ++ khigh ++ dd ++ klow = rowWI sel dd (khigh ++ klow) := by
    rw [rowWI, BitVec.extractLsb'_append_eq_left, BitVec.extractLsb'_append_eq_right]
  obtain ⟨-, hdd, -⟩ := rowWI_fields sel dd (khigh ++ klow)
  rw [hrow, fieldK6_rowWI]
  exact (h.1 dd _ _ (by rw [fieldPairLow_val, hdd])).1

/-- One test of the decoder: a word that passes it and is encoded from what it answers, or else goes on, is encoded from
the instruction answered. -/
theorem encode_of_ite_eq_some {w : Word} {test : Prop} [Decidable test] {a i : Instr} {rest : Option Instr}
    (h : (if test then some a else rest) = some i) (hfirst : test → encode a = some w)
    (hrest : rest = some i → encode i = some w) : encode i = some w := by
  split at h
  case isTrue ht => exact Option.some.inj h ▸ hfirst ht
  case isFalse => exact hrest h

/-- Whatever test of the decoder a word passes, the instruction answered has that word. -/
theorem encode_of_decode {w : Word} {i : Instr} (h : decode w = some i) : encode i = some w := by
  unfold decode at h
  refine encode_of_ite_eq_some h (encode_fields_of_encodedRR encodedRR_sbc) fun h => ?_
  refine encode_of_ite_eq_some h (encode_fields_of_encodedRR encodedRR_add) fun h => ?_
  refine encode_of_ite_eq_some h (encode_fields_of_encodedRR encodedRR_sub) fun h => ?_
  refine encode_of_ite_eq_some h (encode_fields_of_encodedRR encodedRR_adc) fun h => ?_
  refine encode_of_ite_eq_some h (encode_fields_of_encodedRR Machine.encodedRR_and) fun h => ?_
  refine encode_of_ite_eq_some h (encode_fields_of_encodedRR Machine.encodedRR_eor) fun h => ?_
  refine encode_of_ite_eq_some h (encode_fields_of_encodedRR Machine.encodedRR_or) fun h => ?_
  refine encode_of_ite_eq_some h (encode_fields_of_encodedRI encodedRI_sbci) fun h => ?_
  refine encode_of_ite_eq_some h (encode_fields_of_encodedRI encodedRI_subi) fun h => ?_
  refine encode_of_ite_eq_some h (encode_fields_of_encodedRI Machine.encodedRI_ori) fun h => ?_
  refine encode_of_ite_eq_some h (encode_fields_of_encodedRI Machine.encodedRI_andi) fun h => ?_
  refine encode_of_ite_eq_some h encode_ser_fields fun h => ?_
  refine encode_of_ite_eq_some h (encode_field_of_encodedR1 encodedR1_com) fun h => ?_
  refine encode_of_ite_eq_some h (encode_field_of_encodedR1 encodedR1_neg) fun h => ?_
  refine encode_of_ite_eq_some h (encode_field_of_encodedR1 encodedR1_inc) fun h => ?_
  refine encode_of_ite_eq_some h (encode_field_of_encodedR1 encodedR1_asr) fun h => ?_
  refine encode_of_ite_eq_some h (encode_field_of_encodedR1 encodedR1_lsr) fun h => ?_
  refine encode_of_ite_eq_some h (encode_field_of_encodedR1 encodedR1_ror) fun h => ?_
  refine encode_of_ite_eq_some h (encode_field_of_encodedR1 encodedR1_dec) fun h => ?_
  refine encode_of_ite_eq_some h (encode_fields_of_encodedWI encodedWI_adiw) fun h => ?_
  refine encode_of_ite_eq_some h (encode_fields_of_encodedWI encodedWI_sbiw) fun h => ?_
  cases h

/-- A decoded instruction is no second name: its word, encoded again, is answered in canonical form. -/
theorem canonical_of_decode {w : Word} {i : Instr} (h : decode w = some i) : i.canonical = i := by
  have henc := encode_of_decode h
  obtain ⟨w', henc', hdec'⟩ := exists_word_of_wellFormed i ((encode_eq_some_iff i w).1 henc).1
  obtain rfl : w = w' := Option.some.inj (henc.symm.trans henc')
  exact Option.some.inj (hdec'.symm.trans h)

theorem wellFormed_of_decode {w : Word} {i : Instr} (h : decode w = some i) : i.wellFormed = true :=
  ((encode_eq_some_iff i w).1 (encode_of_decode h)).1

/-- Settles O9: the word is that of the instruction answered, and a second name is not its own canonical form. -/
theorem encodeReturnsTheDecodedWord : Obligations.EncodeReturnsTheDecodedWord := by
  intro w i h
  have hcanon := canonical_of_decode h
  refine ⟨wellFormed_of_decode h, encode_of_decode h, hcanon, fun d => ⟨?_, ?_, ?_⟩⟩
  · rintro rfl
    cases hcanon
  · rintro rfl
    cases hcanon
  · rintro rfl
    cases hcanon

end Sys2Proof
end

section
/-! PROOFS. The second names of 30_encoding.md rule R70: LSL, ROL and CLR do what ADD, ADC and EOR do with one
register as both operands. Twice a byte and the carry is the byte moved one place up, its carries the bits that leave.
-/

namespace Sys2Proof.Machine

theorem add8_self_r (a : Byte) (c : Bool) : (add8 a a c).r = a.extractLsb' 0 7 ++ BitVec.ofBool c := by
  apply BitVec.eq_of_toNat_eq
  rw [extractLsb'_append_ofBool a c, toNat_shiftConcat_eq_two_mul, add8_r_toNat, Nat.two_mul]
  rfl

/-- Two equal bits carry themselves, whatever enters. -/
theorem carry_self_succ {w : Nat} {a r : BitVec w} {c : Bool} (h : IsSum a a c r) {i : Nat} (hi : i < w) :
    BitVec.carry (i + 1) a a c = a.getLsbD i := by
  rw [h.carry_succ_eq_bits hi]
  cases a.getLsbD i <;> simp

/-- The flags of LSL and ROL (rules R111, R113) are those of the sum (rule R29). -/
theorem putShl_eq_putAlu8 (f : Sreg) (a : Byte) (c : Bool) : f.putShl a (add8 a a c).r = f.putAlu8 (add8 a a c) := by
  have hsum := add8_isSum a a c
  have hc : (add8 a a c).c = a.getLsbD 7 := (add8_c_eq_carry a a c).trans (carry_self_succ hsum (by decide))
  have hh : (add8 a a c).h = a.getLsbD 3 := (add8_h_eq_carry a a c).trans (carry_self_succ hsum (by decide))
  have hv : (add8 a a c).v = ((add8 a a c).r.getLsbD 7 ^^ a.getLsbD 7) := by simp [add8]
  have hs : (add8 a a c).s = a.getLsbD 7 := by
    change signTest (negative (add8 a a c).r) (add8 a a c).v = _
    simp [hv, signTest, negative]
  rw [Sreg.putAlu8, hc, hh, hv, hs]
  rfl

/-- A byte exclusive-or'd with itself is 0x00, of which `logic_flags` (rule R32) are the constant flags of rule R122. -/
theorem putLogic_zero (f : Sreg) : f.putLogic 0x00#8 = f.putClr := rfl

theorem exec_lsl_eq_add (d : RegNum) (s : State) : exec (.lsl d) s = exec (.add d d) s := by
  rw [exec_lsl, exec_add, ← add8_self_r, putShl_eq_putAlu8]

theorem exec_rol_eq_adc (d : RegNum) (s : State) : exec (.rol d) s = exec (.adc d d) s := by
  rw [exec_rol, exec_adc, ← add8_self_r, putShl_eq_putAlu8]

theorem exec_clr_eq_eor (d : RegNum) (s : State) : exec (.clr d) s = exec (.eor d d) s := by
  rw [exec_clr, exec_eor, BitVec.xor_self, putLogic_zero]

/-- The instruction the decoder answers for the word of this one has its effect (rule R70). -/
theorem exec_canonical (i : Instr) (s : State) : exec i.canonical s = exec i s := by
  cases i with
  | lsl d => exact (exec_lsl_eq_add d s).symm
  | rol d => exact (exec_rol_eq_adc d s).symm
  | clr d => exact (exec_clr_eq_eor d s).symm
  | _ => rfl

/-- Settles O10. -/
theorem secondNamesAreAddAdcEorOfOneRegister : Obligations.SecondNamesAreAddAdcEorOfOneRegister := fun d s =>
  ⟨⟨encode_lsl_eq_add d, exec_lsl_eq_add d s⟩, ⟨encode_rol_eq_adc d, exec_rol_eq_adc d s⟩,
    ⟨encode_clr_eq_eor d, exec_clr_eq_eor d s⟩⟩

end Sys2Proof.Machine
end

section
/-! PROOFS. The opcode table of 30_encoding.md rule R68 against the decoder of rule R71. A row without a second name
is one test of the decoder; a row of LSL, ROL or CLR is the test of ADD, ADC or EOR where the two register fields are
equal. -/

namespace Sys2Proof

/-! ### What a row covers -/

theorem covers_iff (row : OpcodeRow) (w : Word) : row.covers w = true
    ↔ w &&& row.mask = row.pattern ∧ (row.secondName = true → fieldR w = fieldD w) := by
  cases h : row.secondName <;> simp [OpcodeRow.covers, h]

/-- A word of a row decodes to an instruction that the row names. -/
def OpcodeRow.IsDecoded (row : OpcodeRow) : Prop :=
  ∀ w, row.covers w = true → ∃ i : Instr, decode w = some i.canonical ∧ i.mnemonic = row.mnemonic ∧ i.wellFormed = true

theorem isDecoded_of_decode {row : OpcodeRow} {mk : Word → Instr}
    (hdec : ∀ w, w &&& row.mask = row.pattern → decode w = some (mk w)) (hname : ∀ w, (mk w).mnemonic = row.mnemonic) :
    row.IsDecoded := by
  intro w hw
  have h := hdec w ((covers_iff row w).1 hw).1
  refine ⟨mk w, ?_, hname w, wellFormed_of_decode h⟩
  rw [canonical_of_decode h, h]

/-- A row of a second name: the word decodes to the canonical form, with one register in both fields (rule R70). -/
theorem isDecoded_of_secondName {row : OpcodeRow} {mk : RegNum → RegNum → Instr} {second : RegNum → Instr}
    (hrow : row.secondName = true)
    (hdec : ∀ w, w &&& row.mask = row.pattern → decode w = some (mk (fieldD w) (fieldR w)))
    (hsecond : ∀ d, (second d).canonical = mk d d ∧ (second d).mnemonic = row.mnemonic ∧ (second d).wellFormed = true) :
    row.IsDecoded := by
  intro w hw
  obtain ⟨hmask, hfields⟩ := (covers_iff row w).1 hw
  obtain ⟨hcanon, hname, hwf⟩ := hsecond (fieldD w)
  refine ⟨second (fieldD w), ?_, hname, hwf⟩
  rw [hcanon, hdec w hmask, hfields hrow]

/-! ### The table -/

theorem opcodeRows_isDecoded : ∀ row ∈ opcodeRows, row.IsDecoded := by
  simp only [opcodeRows, List.forall_mem_cons]
  refine ⟨isDecoded_of_decode (fun _ => decode_of_and_opcode) fun _ => rfl,
    isDecoded_of_decode (fun _ => decode_of_andi_opcode) fun _ => rfl,
    isDecoded_of_decode (fun _ => decode_of_or_opcode) fun _ => rfl,
    isDecoded_of_decode (fun _ => decode_of_ori_opcode) fun _ => rfl,
    isDecoded_of_decode (fun _ => decode_of_eor_opcode) fun _ => rfl,
    isDecoded_of_secondName (second := .lsl) rfl (fun _ => decode_of_add_opcode) fun _ => ⟨rfl, rfl, rfl⟩,
    isDecoded_of_decode (fun _ => decode_of_lsr_opcode) fun _ => rfl,
    isDecoded_of_secondName (second := .rol) rfl (fun _ => decode_of_adc_opcode) fun _ => ⟨rfl, rfl, rfl⟩,
    isDecoded_of_decode (fun _ => decode_of_ror_opcode) fun _ => rfl,
    isDecoded_of_decode (fun _ => decode_of_asr_opcode) fun _ => rfl,
    isDecoded_of_decode (fun _ => decode_of_ser_opcode) fun _ => rfl,
    isDecoded_of_secondName (second := .clr) rfl (fun _ => decode_of_eor_opcode) fun _ => ⟨rfl, rfl, rfl⟩,
    isDecoded_of_decode (fun _ => decode_of_inc_opcode) fun _ => rfl,
    isDecoded_of_decode (fun _ => decode_of_dec_opcode) fun _ => rfl,
    isDecoded_of_decode (fun _ => decode_of_add_opcode) fun _ => rfl,
    isDecoded_of_decode (fun _ => decode_of_sub_opcode) fun _ => rfl,
    isDecoded_of_decode (fun _ => decode_of_subi_opcode) fun _ => rfl,
    isDecoded_of_decode (fun _ => decode_of_adc_opcode) fun _ => rfl,
    isDecoded_of_decode (fun _ => decode_of_sbc_opcode) fun _ => rfl,
    isDecoded_of_decode (fun _ => decode_of_sbci_opcode) fun _ => rfl,
    isDecoded_of_decode (fun _ => decode_of_adiw_opcode) fun _ => rfl,
    isDecoded_of_decode (fun _ => decode_of_sbiw_opcode) fun _ => rfl,
    isDecoded_of_decode (fun _ => decode_of_com_opcode) fun _ => rfl,
    isDecoded_of_decode (fun _ => decode_of_neg_opcode) fun _ => rfl, ?_⟩
  exact fun _ h => absurd h List.not_mem_nil

/-- Two rows without second names meet in a bit where their patterns differ. -/
theorem opcodeRows_eq_of_patterns_agree : ∀ r₁ ∈ opcodeRows, ∀ r₂ ∈ opcodeRows, r₁.secondName = false →
    r₂.secondName = false → r₁.pattern &&& r₂.mask = r₂.pattern &&& r₁.mask → r₁ = r₂ := by
  decide

/-- The tests of the decoder are the rows without second names. -/
theorem decode_eq_none_of_not_covered {w : Word} (h : ∀ row ∈ opcodeRows, row.covers w = false) : decode w = none := by
  have htests : ∀ row ∈ opcodeRows, row.secondName = false → ¬ w &&& row.mask = row.pattern := by
    intro row hrow hname hmask
    exact Bool.eq_false_iff.1 (h row hrow) (by simp [covers_iff, hmask, hname])
  simp only [opcodeRows, List.forall_mem_cons, forall_const] at htests
  simp only [decode, htests, if_false]

/-- Settles O7: row by row, and by the masks of two rows. -/
theorem opcodeTableDecidesTheDecoder : Obligations.OpcodeTableDecidesTheDecoder := by
  refine ⟨opcodeRows_isDecoded, fun r₁ h₁ r₂ h₂ hs₁ hs₂ w hw₁ hw₂ => ?_, fun w => decode_eq_none_of_not_covered⟩
  obtain ⟨hmask₁, -⟩ := (covers_iff r₁ w).1 hw₁
  obtain ⟨hmask₂, -⟩ := (covers_iff r₂ w).1 hw₂
  by_contra hne
  exact and_mask_ne hmask₂ (fun hp => hne (opcodeRows_eq_of_patterns_agree r₁ h₁ r₂ h₂ hs₁ hs₂ hp)) hmask₁

/-- Settles O6: thirteen closed words. -/
theorem sampleWordsDecodeAsTheSpecWritesThem : Obligations.SampleWordsDecodeAsTheSpecWritesThem := by
  unfold Obligations.SampleWordsDecodeAsTheSpecWritesThem
  decide

end Sys2Proof
end

section
/-! PROOFS. The step and the runs. Everything a step can do (20_memory.md rule R41) is said once; a step that goes on
keeps the frame of the instruction run, and with it the invariant. What holds of a run is then an induction over its
steps. -/

namespace Sys2Proof.Machine

/-! ### What a step can do -/

/-- A word that is not read has a byte that nothing supplied (log 4). -/
theorem unprogrammed_of_progRead {s : State} {a : Nat} {f : Fault} (h : s.progRead a = .error f) :
    ∃ b, f = .unprogrammed b ∧ (b = 2 * a ∨ b = 2 * a + 1) ∧ s.readByte b = none := by
  unfold State.progRead at h
  split at h
  case h_1 hlo => exact ⟨_, (Except.error.inj h).symm, .inl rfl, hlo⟩
  case h_2 =>
    split at h
    case h_1 hhi => exact ⟨_, (Except.error.inj h).symm, .inr rfl, hhi⟩
    case h_2 => cases h

theorem step_of_progRead_error {s : State} {f : Fault} (h : s.pc < s.dev.flashWords) (hw : s.progRead s.pc = .error f) :
    step s = .fault f := by
  simp [step, State.fetchInstr, State.fetch, Nat.not_le.2 h, hw]

/-- Everything a step can do, by what stands at the counter. -/
theorem step_cases (s : State) :
    (s.dev.flashWords ≤ s.pc ∧ step s = .refused (.outOfScopeFetch s.pc))
      ∨ (s.pc < s.dev.flashWords ∧ ∃ f, s.progRead s.pc = .error f ∧ step s = .fault f)
      ∨ (s.pc < s.dev.flashWords ∧ ∃ w, s.progRead s.pc = .ok w ∧ decode w = none
          ∧ step s = .refused (.outOfScopeWord w s.pc))
      ∨ (s.pc < s.dev.flashWords ∧ ∃ w i, s.progRead s.pc = .ok w ∧ decode w = some i ∧ step s = exec i s) := by
  rcases s.fetchInstr_cases with ⟨h, -⟩ | ⟨h, f, hf, -⟩ | ⟨h, w, hw, hi, -⟩ | ⟨h, w, i, hw, hi, -⟩
  · exact .inl ⟨h, step_outside h⟩
  · exact .inr (.inl ⟨h, f, hf, step_of_progRead_error h hf⟩)
  · exact .inr (.inr (.inl ⟨h, w, hw, hi, step_of_decode_none h hw hi⟩))
  · exact .inr (.inr (.inr ⟨h, w, i, hw, hi, step_of_decode_some h hw hi⟩))

/-- Settles O14: each instruction ends in one of the two writebacks. -/
theorem everyInstructionCompletesInEveryState : Obligations.EveryInstructionCompletesInEveryState :=
  exec_completes_keepsRest

/-- Settles O13: of the four cases of a step the instruction run completes, and each other gives its own stop. -/
theorem stepStopsForNoOtherReason : Obligations.StepStopsForNoOtherReason := by
  intro s
  rcases step_cases s with ⟨hpc, hstep⟩ | ⟨hpc, f, hf, hstep⟩ | ⟨hpc, w, hw, hi, hstep⟩ | ⟨-, w, i, -, -, hstep⟩
  · rw [hstep]
    exact ⟨fun r hr => .inl ⟨(Host.Outcome.refused.inj hr).symm, hpc⟩, nofun⟩
  · rw [hstep]
    exact ⟨nofun, fun f' hf' => ⟨hpc, Host.Outcome.fault.inj hf' ▸ unprogrammed_of_progRead hf⟩⟩
  · rw [hstep]
    exact ⟨fun r hr => .inr ⟨w, (Host.Outcome.refused.inj hr).symm, hpc, hw, hi⟩, nofun⟩
  · obtain ⟨t, hexec, -⟩ := exec_completes_keepsRest i s
    rw [hstep, hexec]
    exact ⟨nofun, nofun⟩

/-- Settles O12: the two bytes are read as the instruction's word, which decodes to its canonical form, of the same
effect. -/
theorem stepRunsTheInstructionAtTheCounter : Obligations.StepRunsTheInstructionAtTheCounter := by
  intro s i w hpc henc hlo hhi
  have hread : s.progRead s.pc = .ok w := by
    rw [State.progRead_of_bytes hlo hhi, wordOfBytes_lowByte_highByte]
  obtain ⟨hwf, -⟩ := (encode_eq_some_iff i w).1 henc
  obtain ⟨w', henc', hdec⟩ := exists_word_of_wellFormed i hwf
  obtain rfl : w = w' := Option.some.inj (henc.symm.trans henc')
  have hstep := step_of_decode_some hpc hread hdec
  exact ⟨hstep, hstep.trans (exec_canonical i s)⟩

/-! ### What a step that goes on keeps -/

theorem exec_of_step {s t : State} (h : step s = .next t) :
    s.pc < s.dev.flashWords ∧ ∃ i, exec i s = .next t := by
  rcases step_cases s with ⟨-, hstep⟩ | ⟨-, f, -, hstep⟩ | ⟨-, w, -, -, hstep⟩ | ⟨hpc, w, i, -, -, hstep⟩
  · cases hstep.symm.trans h
  · cases hstep.symm.trans h
  · cases hstep.symm.trans h
  · exact ⟨hpc, i, hstep.symm.trans h⟩

theorem exec_keepsRest {i : Instr} {s t : State} (h : exec i s = .next t) : KeepsRest (destinations i) s t := by
  obtain ⟨u, hu, hkeep⟩ := exec_completes_keepsRest i s
  obtain rfl : u = t := Host.Outcome.next.inj (hu.symm.trans h)
  exact hkeep

/-- No instruction writes program memory (20_memory.md rule R51), neither what it reads as nor how it is listed. -/
theorem exec_flash {i : Instr} {s t : State} (h : exec i s = .next t) : t.flash = s.flash := by
  cases i <;> cases h <;> rfl

/-- What every step keeps, the counter it comes from being inside program memory. -/
theorem step_keeps {s t : State} (h : step s = .next t) :
    s.pc < s.dev.flashWords ∧ t.pc = (s.pc + 1) % 2 ^ s.dev.pcBits ∧ t.flash = s.flash ∧ t.dev = s.dev
      ∧ t.sreg.i = s.sreg.i ∧ t.sreg.t = s.sreg.t := by
  obtain ⟨hpc, i, hexec⟩ := exec_of_step h
  obtain ⟨-, -, hdev, hi, ht, hnext⟩ := exec_keepsRest hexec
  exact ⟨hpc, hnext, exec_flash hexec, hdev, hi, ht⟩

/-! ### The invariant -/

theorem device_wf_iff (v : Device) : v.wf = true
    ↔ 1 ≤ v.pcBits ∧ 1 ≤ v.flashWords ∧ v.flashWords < 2 ^ v.pcBits ∧ v.resetPc < v.flashWords := by
  simp [Device.wf, and_assoc]

theorem State.inv_iff (s : State) : s.inv = true
    ↔ s.dev.wf = true ∧ s.pc ≤ s.dev.flashWords ∧ Memory.wf s.flash = true
      ∧ Memory.within s.flash s.dev.flashWords = true := by
  simp [State.inv, and_assoc]

/-- Inside program memory the counter is below 2^`PC_BITS` - 1, so its successor is the plain one (10_state.md rule
R24). -/
theorem step_keeps_inv {s t : State} (hinv : s.inv = true) (h : step s = .next t) : t.inv = true ∧ t.pc = s.pc + 1 := by
  obtain ⟨hdev, -, hwf, hwithin⟩ := s.inv_iff.1 hinv
  obtain ⟨-, -, hwords, -⟩ := (device_wf_iff _).1 hdev
  obtain ⟨hpc, hnext, hflash, hdev', -, -⟩ := step_keeps h
  rw [Nat.mod_eq_of_lt (by omega)] at hnext
  refine ⟨t.inv_iff.2 ?_, hnext⟩
  rw [hdev', hflash, hnext]
  exact ⟨hdev, hpc, hwf, hwithin⟩

/-- Settles O15. -/
theorem everyStepKeepsTheInvariant : Obligations.EveryStepKeepsTheInvariant := fun _ _ => step_keeps_inv

/-! ### Runs -/

/-- Settles O16: by induction over the steps, each of which keeps what the run keeps. -/
theorem runsKeepProgramMemoryAndInterruptFlag : Obligations.RunsKeepProgramMemoryAndInterruptFlag := by
  suffices hkeep : ∀ n s t, runSteps n s = .next t →
      t.flash = s.flash ∧ t.dev = s.dev ∧ t.sreg.i = s.sreg.i ∧ t.sreg.t = s.sreg.t by
    intro n s t h
    obtain ⟨hflash, hdev, hi, ht⟩ := hkeep n s t h
    exact ⟨hflash, hdev, hi, ht, fun hno => hi.trans hno⟩
  intro n
  induction n with
  | zero =>
    rintro s _ ⟨⟩
    exact ⟨rfl, rfl, rfl, rfl⟩
  | succ n ih =>
    intro s t h
    obtain ⟨u, hstep, hrun⟩ := runSteps_next_cases h
    obtain ⟨-, -, hflash, hdev, hi, ht⟩ := step_keeps hstep
    obtain ⟨hflash', hdev', hi', ht'⟩ := ih u t hrun
    exact ⟨hflash'.trans hflash, hdev'.trans hdev, hi'.trans hi, ht'.trans ht⟩

/-- Settles O17: by induction over the steps, each of which moves the counter by one and keeps the invariant. -/
theorem runOfNInstructionsEndsNWordsOn : Obligations.RunOfNInstructionsEndsNWordsOn := by
  intro n
  induction n with
  | zero =>
    rintro s _ hinv ⟨⟩
    exact ⟨rfl, hinv⟩
  | succ n ih =>
    intro s t hinv h
    obtain ⟨u, hstep, hrun⟩ := runSteps_next_cases h
    obtain ⟨hinv', hpc⟩ := step_keeps_inv hinv hstep
    obtain ⟨hpc', hinv''⟩ := ih u t hinv' hrun
    exact ⟨by omega, hinv''⟩

/-! ### Runs to `END_PC` (70_reset_and_hazards.md rule R223) -/

theorem runTo_of_final {s : State} {endPc : Nat} (h : s.pc = endPc) (n : Nat) : runTo endPc n s = .next s := by
  cases n with
  | zero => rfl
  | succ n => simp [runTo, State.isFinal, h]

/-- From a state that is not final a run to `END_PC` takes the step that a plain run takes. -/
theorem runTo_succ_eq_runSteps {s : State} {endPc n m : Nat} (h : s.pc ≠ endPc)
    (hnext : ∀ t, step s = .next t → runTo endPc m t = runSteps n t) :
    runTo endPc (m + 1) s = runSteps (n + 1) s := by
  rw [runTo, if_neg (by simpa [State.isFinal] using h), runSteps]
  cases hstep : step s with
  | next t => exact hnext t hstep
  | fault f => rfl
  | refused r => rfl

/-- `n` words before `END_PC`, fuel of `n` or more gives the run of `n` steps. -/
theorem runTo_eq_runSteps {endPc : Nat} (k n : Nat) {s : State} (hinv : s.inv = true) (hpc : s.pc + n = endPc) :
    runTo endPc (n + k) s = runSteps n s := by
  induction n generalizing s with
  | zero => exact runTo_of_final hpc _
  | succ n ih =>
    rw [Nat.add_right_comm]
    refine runTo_succ_eq_runSteps (by omega) fun t hstep => ?_
    obtain ⟨hinv', hpc'⟩ := step_keeps_inv hinv hstep
    exact ih hinv' (by omega)

theorem progRead_congr {s t : State} (h : t.flash = s.flash) (a : Nat) : t.progRead a = s.progRead a := by
  simp only [State.progRead, State.readByte, h]

/-- A run over words of instructions, all inside program memory, goes through: no step changes the words ahead. -/
theorem runSteps_completes (n : Nat) {s : State} (hinv : s.inv = true) (hend : s.pc + n ≤ s.dev.flashWords)
    (hwords : ∀ a, s.pc ≤ a → a < s.pc + n → ∃ w i, s.progRead a = .ok w ∧ decode w = some i) :
    ∃ t, runSteps n s = .next t := by
  induction n generalizing s with
  | zero => exact ⟨s, rfl⟩
  | succ n ih =>
    obtain ⟨w, i, hw, hi⟩ := hwords s.pc (Nat.le_refl _) (by omega)
    obtain ⟨u, hexec, -⟩ := exec_completes_keepsRest i s
    have hstep : step s = .next u := (step_of_decode_some (by omega) hw hi).trans hexec
    obtain ⟨hinv', hpc'⟩ := step_keeps_inv hinv hstep
    obtain ⟨-, -, hflash, hdev, -, -⟩ := step_keeps hstep
    rw [runSteps_of_next n hstep]
    refine ih hinv' (by rw [hdev]; omega) fun a ha ha' => ?_
    rw [progRead_congr hflash]
    exact hwords a (by omega) (by omega)

theorem launch_of_interrupts_enabled {s : State} (h : s.sreg.i = true) (endPc : Nat) :
    launch endPc s = .refused .launchWithInterruptsEnabled := by
  rw [launch, if_pos h]

theorem launch_of_noInterrupts {s : State} (h : NoInterrupts s) (endPc : Nat) :
    launch endPc s = runTo endPc (endPc - s.pc) s := by
  rw [launch, if_neg (Bool.eq_false_iff.1 h)]

/-- Settles O18: the launch is the run of `END_PC − pc` steps, which ends at `END_PC` by O17. -/
theorem runToEndPcIsExact : Obligations.RunToEndPcIsExact := by
  intro s endPc hinv hno hstart hend
  have hpc : s.pc + (endPc - s.pc) = endPc := Nat.add_sub_cancel' hstart
  have hfuel : ∀ k, runTo endPc (endPc - s.pc + k) s = runSteps (endPc - s.pc) s := fun k =>
    runTo_eq_runSteps k _ hinv hpc
  have hlaunch : launch endPc s = runSteps (endPc - s.pc) s := (launch_of_noInterrupts hno endPc).trans (hfuel 0)
  have hfinal : ∀ t, launch endPc s = .next t → t.isFinal endPc = true := by
    intro t ht
    obtain ⟨htpc, -⟩ := runOfNInstructionsEndsNWordsOn _ s t hinv (hlaunch ▸ ht)
    exact beq_iff_eq.2 (htpc.trans hpc)
  refine ⟨hlaunch, fun k => (hfuel k).trans (hfuel 0).symm, hfinal, fun hwords => ?_⟩
  obtain ⟨t, ht⟩ := runSteps_completes (endPc - s.pc) hinv (by omega) fun a ha ha' => hwords a ha (by omega)
  exact ⟨t, hlaunch.trans ht, hfinal t (hlaunch.trans ht)⟩

/-- Settles O19. -/
theorem launchRefusesInterruptsEnabled : Obligations.LaunchRefusesInterruptsEnabled := fun _ endPc =>
  ⟨fun hi => launch_of_interrupts_enabled hi endPc,
    fun hi hpc => (launch_of_noInterrupts hi endPc).trans (runTo_of_final hpc _)⟩

end Sys2Proof.Machine
end

section
/-! PROOFS. Reset, registers and pairs, SREG as a byte, and program memory as the host loads it. -/

namespace Sys2Proof.Machine

/-! ### Reset (10_state.md rule R37, 70_reset_and_hazards.md rule R220) -/

theorem Sreg.flag_clear (name : FlagName) : Sreg.clear.flag name = false := by
  cases name <;> rfl

/-- Settles O1. -/
theorem resetConstructsTheInitialState : Obligations.ResetConstructsTheInitialState := by
  refine ⟨fun dev regs flash =>
      ⟨rfl, Sreg.flag_clear, rfl, ⟨rfl, rfl, rfl, rfl, rfl, rfl, rfl⟩, fun _ => rfl, fun _ => rfl⟩,
    rfl, rfl, rfl, fun j => ?_, Memory.read_nil⟩
  exact (Vector.get_eq_getElem _ j).trans (Vector.getElem_replicate j.isLt)

theorem resetWith_inv {dev : Device} (regs : Vector Byte 32) {flash : Memory} (hdev : dev.wf = true)
    (hwf : Memory.wf flash = true) (hwithin : Memory.within flash dev.flashWords = true) :
    (State.resetWith dev regs flash).inv = true := by
  obtain ⟨-, -, -, hreset⟩ := (device_wf_iff dev).1 hdev
  exact (State.inv_iff _).2 ⟨hdev, hreset.le, hwf, hwithin⟩

/-- Settles O2: an admissible device starts inside its program memory. -/
theorem invariantHoldsAfterReset : Obligations.InvariantHoldsAfterReset :=
  ⟨resetWith_inv _ (by decide) rfl rfl, fun _ regs _ => resetWith_inv regs⟩

/-! ### Registers and pairs (10_state.md rules R20, R22) -/

/-- A pair written is read back: its low and its high byte are all of it. -/
theorem State.pair_setPair (s : State) (dl : RegNum) (v : Word) : (s.setPair dl v).pair dl = v := by
  rw [State.pair, State.x_setPair, State.x_setPair, if_neg (pairHigh_ne dl).symm, if_pos rfl, if_pos rfl]
  exact wordOfBytes_lowByte_highByte v

theorem State.pair_setX_low (s : State) (dl : RegNum) (v : Byte) :
    (s.setX dl v).pair dl = s.x (pairHigh dl) ++ v := by
  rw [State.pair, State.x_setX, State.x_setX, if_neg (pairHigh_ne dl).symm, if_pos rfl]

theorem State.pair_setX_high (s : State) (dl : RegNum) (v : Byte) :
    (s.setX (pairHigh dl) v).pair dl = v ++ s.x dl := by
  rw [State.pair, State.x_setX, State.x_setX, if_pos rfl, if_neg (pairHigh_ne dl)]

/-- Settles O3: the partner of a pair's low register is `pairHigh`, and the bytes of a concatenation are its halves. -/
theorem registersAndPairsReadWhatWasWritten : Obligations.RegistersAndPairsReadWhatWasWritten := by
  refine ⟨fun s i j v => ?_, fun s dl v _ => s.pair_setPair dl v, fun s dl dh hdl hdh => ?_⟩
  · rw [State.x_setX]
    exact if_congr eq_comm rfl rfl
  · obtain rfl : dh = pairHigh dl := eq_pairHigh hdl hdh
    refine ⟨rfl, fun v => ?_, fun w j => ?_⟩
    · rw [State.pair_setX_low, State.pair_setX_high, State.pair]
      simp only [BitVec.extractLsb'_append_eq_left, BitVec.extractLsb'_append_eq_right, and_self]
    · rw [State.x_setPair]
      exact if_congr eq_comm rfl (if_congr eq_comm rfl rfl)

/-! ### SREG as a byte (10_state.md rule R26) -/

/-- The place of each flag in the byte, and so what `ofByte` reads from it. -/
theorem Sreg.toByte_bits (f : Sreg) :
    f.toByte.getLsbD 7 = f.i ∧ f.toByte.getLsbD 6 = f.t ∧ f.toByte.getLsbD 5 = f.h ∧ f.toByte.getLsbD 4 = f.s
      ∧ f.toByte.getLsbD 3 = f.v ∧ f.toByte.getLsbD 2 = f.n ∧ f.toByte.getLsbD 1 = f.z ∧ f.toByte.getLsbD 0 = f.c := by
  simp only [Sreg.toByte, BitVec.getLsbD_ofBoolListBE]
  exact ⟨rfl, rfl, rfl, rfl, rfl, rfl, rfl, rfl⟩

theorem Sreg.ofByte_toByte (f : Sreg) : Sreg.ofByte f.toByte = f := by
  obtain ⟨hi, ht, hh, hs, hv, hn, hz, hc⟩ := f.toByte_bits
  rw [Sreg.ofByte, hi, ht, hh, hs, hv, hn, hz, hc]

theorem Sreg.toByte_ofByte (b : Byte) : (Sreg.ofByte b).toByte = b := by
  obtain ⟨hi, ht, hh, hs, hv, hn, hz, hc⟩ := (Sreg.ofByte b).toByte_bits
  apply BitVec.eq_of_getLsbD_eq
  intro k hk
  interval_cases k <;> assumption

/-- Settles O4. -/
theorem sregPacksItsFlagsByPosition : Obligations.SregPacksItsFlagsByPosition := by
  refine ⟨fun f => ?_, Sreg.toByte_ofByte⟩
  obtain ⟨hi, ht, hh, hs, hv, hn, hz, hc⟩ := f.toByte_bits
  exact ⟨hi, ht, hh, hs, hv, hn, hz, hc, f.ofByte_toByte⟩

/-! ### The host's load of a program (70_reset_and_hazards.md rule R224) -/

/-- What the load of every single word keeps, the load of a program keeps. -/
theorem progLoad_of_progWrite {P : State → Prop} (hwrite : ∀ t a w, P t → P (t.progWrite a w)) (ws : List Word)
    {s : State} (a : Nat) (hs : P s) : P (s.progLoad a ws) := by
  induction ws generalizing s a with
  | nil => exact hs
  | cons w ws ih => exact ih (a + 1) (hwrite s a w hs)

theorem progLoad_dev (s : State) (a : Nat) (ws : List Word) : (s.progLoad a ws).dev = s.dev :=
  progLoad_of_progWrite (P := fun t => t.dev = s.dev) (fun t b w ht => (t.progWrite_dev b w).trans ht) ws a rfl

theorem progLoad_keeps (s : State) (a : Nat) (ws : List Word) :
    (s.progLoad a ws).regs = s.regs ∧ (s.progLoad a ws).sreg = s.sreg ∧ (s.progLoad a ws).pc = s.pc := by
  refine progLoad_of_progWrite (P := fun t => t.regs = s.regs ∧ t.sreg = s.sreg ∧ t.pc = s.pc) ?_ ws a ⟨rfl, rfl, rfl⟩
  rintro t b w ⟨hregs, hsreg, hpc⟩
  exact ⟨(t.progWrite_regs b w).trans hregs, (t.progWrite_sreg b w).trans hsreg, (t.progWrite_pc b w).trans hpc⟩

theorem progLoad_inv {s : State} (hs : s.inv = true) (a : Nat) (ws : List Word) : (s.progLoad a ws).inv = true := by
  refine progLoad_of_progWrite (P := fun t => t.inv = true) (fun t b w ht => ?_) ws a hs
  obtain ⟨hdev, hpc, hwf, hwithin⟩ := t.inv_iff.1 ht
  rw [State.inv_iff, State.progWrite_dev, State.progWrite_pc]
  exact ⟨hdev, hpc, t.wf_progWrite b w hwf, t.within_progWrite b w hwithin⟩

/-- Bytes before and after the program read as before. -/
theorem readByte_progLoad_outside (ws : List Word) {s : State} {a b : Nat} (hend : a + ws.length ≤ s.dev.flashWords)
    (hb : b < 2 * a ∨ 2 * (a + ws.length) ≤ b) : (s.progLoad a ws).readByte b = s.readByte b := by
  induction ws generalizing s a with
  | nil => rfl
  | cons w ws ih =>
    rw [List.length_cons] at hend hb
    have hrest : ((s.progWrite a w).progLoad (a + 1) ws).readByte b = (s.progWrite a w).readByte b :=
      ih (by rw [State.progWrite_dev]; omega) (by omega)
    rw [State.progLoad, hrest, State.readByte_progWrite s a b w (by omega), if_neg (by omega), if_neg (by omega)]

/-- The word `k` words on stands in its two bytes, low byte first: the words loaded after it lie elsewhere. -/
theorem readByte_progLoad_inside (ws : List Word) {s : State} {a k : Nat} {w : Word}
    (hend : a + ws.length ≤ s.dev.flashWords) (hk : ws[k]? = some w) :
    (s.progLoad a ws).readByte (2 * (a + k)) = some (lowByte w)
      ∧ (s.progLoad a ws).readByte (2 * (a + k) + 1) = some (highByte w) := by
  induction ws generalizing s a k with
  | nil => simp at hk
  | cons v ws ih =>
    rw [List.length_cons] at hend
    have hend' : a + 1 + ws.length ≤ (s.progWrite a v).dev.flashWords := by rw [State.progWrite_dev]; omega
    cases k with
    | zero =>
      obtain rfl : v = w := Option.some.inj hk
      rw [State.progLoad, readByte_progLoad_outside ws hend' (by omega), readByte_progLoad_outside ws hend' (by omega),
        State.readByte_progWrite _ _ _ _ (by omega), State.readByte_progWrite _ _ _ _ (by omega)]
      simp
    | succ k =>
      rw [Nat.add_comm k 1, ← Nat.add_assoc]
      exact ih hend' hk

/-- Settles O5: each word read back from its bytes, and what the load of every word keeps. -/
theorem loadedProgramIsWhatTheFetchReads : Obligations.LoadedProgramIsWhatTheFetchReads := by
  intro s a ws hend
  obtain ⟨hregs, hsreg, hpc⟩ := progLoad_keeps s a ws
  have hdev := progLoad_dev s a ws
  refine ⟨⟨hdev ▸ hend, fun k w hk => ?_⟩, fun k w => readByte_progLoad_inside ws hend,
    fun b => readByte_progLoad_outside ws hend, ⟨fun j => by rw [State.x, hregs, State.x], hsreg, hpc, hdev⟩,
    fun hinv => progLoad_inv hinv a ws⟩
  obtain ⟨hlo, hhi⟩ := readByte_progLoad_inside ws hend hk
  rw [State.progRead_of_bytes hlo hhi, wordOfBytes_lowByte_highByte]

end Sys2Proof.Machine
end

section
/-! PROOFS. The flag matrix of 10_state.md rule R27. Each flag writer obeys one row of the matrix; an instruction is a
writeback whose result and flag writer are found from the registers and from C or Z where it reads them. So from two
states that agree on these it writes the same result and applies the same writer. -/

namespace Sys2Proof.Machine

/-! ### The rows and the flag writers -/

/-- What a mark says of a flag: `old` is its value before, `new` its value after, each in terms of all the flags
before. -/
def Mark.Allows : Mark → (old new : Sreg → Bool) → Prop
  | .kept, old, new => ∀ f, new f = old f
  | .computed, _, new => ∃ b, ∀ f, new f = b
  | .zero, _, new => ∀ f, new f = false
  | .one, _, new => ∀ f, new f = true

/-- A flag that is not kept does not depend on the flags before. -/
theorem Mark.Allows.eq_of_ne_kept {m : Mark} {old new : Sreg → Bool} (h : m.Allows old new) (hm : m ≠ .kept)
    (f g : Sreg) : new f = new g := by
  cases m with
  | kept => exact absurd rfl hm
  | computed =>
    obtain ⟨b, hb⟩ := h
    exact (hb f).trans (hb g).symm
  | zero | one => exact (h f).trans (h g).symm

/-- The flag writer `put` obeys the row, column by column. -/
def MarkRow.ObeyedBy (row : MarkRow) (put : Sreg → Sreg) : Prop :=
  ∀ name, (row.cell name).Allows (·.flag name) fun f => (put f).flag name

theorem logicRow_obeyedBy_putLogic (r : Byte) : logicRow.ObeyedBy (·.putLogic r) := by
  intro name
  cases name with
  | i | t | h | v | c => exact fun _ => rfl
  | s | n | z => exact ⟨_, fun _ => rfl⟩

theorem arithRow_obeyedBy_putAlu8 (u : Alu8) : arithRow.ObeyedBy (·.putAlu8 u) := by
  intro name
  cases name with
  | i | t => exact fun _ => rfl
  | h | s | v | n | z | c => exact ⟨_, fun _ => rfl⟩

theorem arithRow_obeyedBy_putShl (a r : Byte) : arithRow.ObeyedBy (·.putShl a r) := by
  intro name
  cases name with
  | i | t => exact fun _ => rfl
  | h | s | v | n | z | c => exact ⟨_, fun _ => rfl⟩

theorem arithRow_obeyedBy_putNeg (a r : Byte) : arithRow.ObeyedBy (·.putNeg a r) := by
  intro name
  cases name with
  | i | t => exact fun _ => rfl
  | h | s | v | n | z | c => exact ⟨_, fun _ => rfl⟩

theorem wordRow_obeyedBy_putAlu16 (u : Alu16) : wordRow.ObeyedBy (·.putAlu16 u) := by
  intro name
  cases name with
  | i | t | h => exact fun _ => rfl
  | s | v | n | z | c => exact ⟨_, fun _ => rfl⟩

theorem wordRow_obeyedBy_putShr (r : Byte) (c0 : Bool) : wordRow.ObeyedBy (·.putShr r c0) := by
  intro name
  cases name with
  | i | t | h => exact fun _ => rfl
  | s | v | n | z | c => exact ⟨_, fun _ => rfl⟩

/-- LSR's row marks N with 0: its result has a 0 in bit 7. -/
theorem lsrRow_obeyedBy_putShr {r : Byte} (hr : negative r = false) (c0 : Bool) : lsrRow.ObeyedBy (·.putShr r c0) := by
  intro name
  cases name with
  | i | t | h => exact fun _ => rfl
  | n => exact fun _ => hr
  | s | v | z | c => exact ⟨_, fun _ => rfl⟩

theorem serRow_obeyedBy_id : serRow.ObeyedBy fun f => f := by
  intro name
  cases name <;> exact fun _ => rfl

theorem clrRow_obeyedBy_putClr : clrRow.ObeyedBy Sreg.putClr := by
  intro name
  cases name <;> exact fun _ => rfl

theorem incDecRow_obeyedBy_putIncDec (r : Byte) (v : Bool) : incDecRow.ObeyedBy (·.putIncDec r v) := by
  intro name
  cases name with
  | i | t | h | c => exact fun _ => rfl
  | s | v | n | z => exact ⟨_, fun _ => rfl⟩

theorem comRow_obeyedBy_putCom (r : Byte) : comRow.ObeyedBy (·.putCom r) := by
  intro name
  cases name with
  | i | t | h | v | c => exact fun _ => rfl
  | s | n | z => exact ⟨_, fun _ => rfl⟩

/-! ### The instructions -/

/-- Two outcomes, from `s₁` and from `s₂`, have equal registers and flags written by one writer, which obeys the row. -/
def SameEffect (row : MarkRow) (s₁ s₂ : State) (out₁ out₂ : Result) : Prop :=
  ∃ t₁ t₂ put, out₁ = .next t₁ ∧ out₂ = .next t₂ ∧ (∀ j, t₁.x j = t₂.x j) ∧ row.ObeyedBy put
    ∧ t₁.sreg = put s₁.sreg ∧ t₂.sreg = put s₂.sreg

section
variable {s₁ s₂ : State} {row : MarkRow} {put : Sreg → Sreg}

theorem sameEffect_writeback (hx : ∀ j, s₁.x j = s₂.x j) (hput : row.ObeyedBy put) (d : RegNum) (r : Byte) :
    SameEffect row s₁ s₂ (.next (s₁.writeback d r (put s₁.sreg))) (.next (s₂.writeback d r (put s₂.sreg))) := by
  refine ⟨_, _, put, rfl, rfl, fun j => ?_, hput, rfl, rfl⟩
  rw [State.writeback_x, State.writeback_x, hx]

theorem sameEffect_writebackPair (hx : ∀ j, s₁.x j = s₂.x j) (hput : row.ObeyedBy put) (dl : RegNum) (v : Word) :
    SameEffect row s₁ s₂ (.next (s₁.writebackPair dl v (put s₁.sreg)))
      (.next (s₂.writebackPair dl v (put s₂.sreg))) := by
  refine ⟨_, _, put, rfl, rfl, fun j => ?_, hput, rfl, rfl⟩
  rw [State.writebackPair_x, State.writebackPair_x, hx]

theorem pair_congr (hx : ∀ j, s₁.x j = s₂.x j) (dl : RegNum) : s₁.pair dl = s₂.pair dl := by
  rw [State.pair, State.pair, hx, hx]

/-- The last sentence of rule R27, instruction by instruction: the operands are equal, so the results and the writers
are. -/
theorem exec_sameEffect (i : Instr) (hx : ∀ j, s₁.x j = s₂.x j) (hc : readsC i = true → s₁.sreg.c = s₂.sreg.c)
    (hz : readsZ i = true → s₁.sreg.z = s₂.sreg.z) : SameEffect (flagRow i) s₁ s₂ (exec i s₁) (exec i s₂) := by
  cases i with
  | and d r =>
    rw [exec_and, exec_and, hx, hx]
    exact sameEffect_writeback hx (logicRow_obeyedBy_putLogic _) d _
  | andi d k =>
    rw [exec_andi, exec_andi, hx]
    exact sameEffect_writeback hx (logicRow_obeyedBy_putLogic _) d _
  | or d r =>
    rw [exec_or, exec_or, hx, hx]
    exact sameEffect_writeback hx (logicRow_obeyedBy_putLogic _) d _
  | ori d k =>
    rw [exec_ori, exec_ori, hx]
    exact sameEffect_writeback hx (logicRow_obeyedBy_putLogic _) d _
  | eor d r =>
    rw [exec_eor, exec_eor, hx, hx]
    exact sameEffect_writeback hx (logicRow_obeyedBy_putLogic _) d _
  | lsl d =>
    rw [exec_lsl, exec_lsl, hx]
    exact sameEffect_writeback hx (arithRow_obeyedBy_putShl _ _) d _
  | lsr d =>
    have hn : negative (BitVec.ofBool false ++ (s₂.x d).extractLsb' 1 7) = false := getLsbD_consShift_top false (s₂.x d)
    rw [exec_lsr, exec_lsr, hx]
    exact sameEffect_writeback hx (lsrRow_obeyedBy_putShr hn _) d _
  | rol d =>
    rw [exec_rol, exec_rol, hx, hc rfl]
    exact sameEffect_writeback hx (arithRow_obeyedBy_putShl _ _) d _
  | ror d =>
    rw [exec_ror, exec_ror, hx, hc rfl]
    exact sameEffect_writeback hx (wordRow_obeyedBy_putShr _ _) d _
  | asr d =>
    rw [exec_asr, exec_asr, hx]
    exact sameEffect_writeback hx (wordRow_obeyedBy_putShr _ _) d _
  | ser d => exact sameEffect_writeback hx serRow_obeyedBy_id d _
  | clr d => exact sameEffect_writeback hx clrRow_obeyedBy_putClr d _
  | inc d =>
    rw [exec_inc, exec_inc, hx]
    exact sameEffect_writeback hx (incDecRow_obeyedBy_putIncDec _ _) d _
  | dec d =>
    rw [exec_dec, exec_dec, hx]
    exact sameEffect_writeback hx (incDecRow_obeyedBy_putIncDec _ _) d _
  | add d r =>
    rw [exec_add, exec_add, hx, hx]
    exact sameEffect_writeback hx (arithRow_obeyedBy_putAlu8 _) d _
  | sub d r =>
    rw [exec_sub, exec_sub, hx, hx]
    exact sameEffect_writeback hx (arithRow_obeyedBy_putAlu8 _) d _
  | subi d k =>
    rw [exec_subi, exec_subi, hx]
    exact sameEffect_writeback hx (arithRow_obeyedBy_putAlu8 _) d _
  | adc d r =>
    rw [exec_adc, exec_adc, hx, hx, hc rfl]
    exact sameEffect_writeback hx (arithRow_obeyedBy_putAlu8 _) d _
  | sbc d r =>
    rw [exec_sbc, exec_sbc, hx, hx, hc rfl, hz rfl]
    exact sameEffect_writeback hx (arithRow_obeyedBy_putAlu8 _) d _
  | sbci d k =>
    rw [exec_sbci, exec_sbci, hx, hc rfl, hz rfl]
    exact sameEffect_writeback hx (arithRow_obeyedBy_putAlu8 _) d _
  | adiw dl k =>
    rw [exec_adiw, exec_adiw, pair_congr hx]
    exact sameEffect_writebackPair hx (wordRow_obeyedBy_putAlu16 _) dl _
  | sbiw dl k =>
    rw [exec_sbiw, exec_sbiw, pair_congr hx]
    exact sameEffect_writebackPair hx (wordRow_obeyedBy_putAlu16 _) dl _
  | com d =>
    rw [exec_com, exec_com, hx]
    exact sameEffect_writeback hx (comRow_obeyedBy_putCom _) d _
  | neg d =>
    rw [exec_neg, exec_neg, hx]
    exact sameEffect_writeback hx (arithRow_obeyedBy_putNeg _ _) d _

end

/-- Settles O20: the flags after are written by a writer that obeys the instruction's row. -/
theorem flagMatrixIsObeyed : Obligations.FlagMatrixIsObeyed := by
  intro i s t hexec name
  obtain ⟨t₁, _, put, ht, -, -, hput, hsreg, -⟩ :=
    exec_sameEffect i (s₁ := s) (fun _ => rfl) (fun _ => rfl) (fun _ => rfl)
  obtain rfl : t₁ = t := Host.Outcome.next.inj (ht.symm.trans hexec)
  have hcell := hput name
  rw [hsreg]
  refine ⟨fun hm => ?_, fun hm => ?_, fun hm => ?_⟩
  all_goals
    rw [hm] at hcell
    exact hcell s.sreg

/-- Settles O21: the same registers, and flags written by the same writer. -/
theorem resultsDependOnlyOnRegistersCarryAndZero : Obligations.ResultsDependOnlyOnRegistersCarryAndZero := by
  intro i s₁ s₂ t₁ t₂ hx hc hz hexec₁ hexec₂
  obtain ⟨u₁, u₂, put, hu₁, hu₂, hregs, hput, hsreg₁, hsreg₂⟩ := exec_sameEffect i hx hc hz
  obtain rfl : u₁ = t₁ := Host.Outcome.next.inj (hu₁.symm.trans hexec₁)
  obtain rfl : u₂ = t₂ := Host.Outcome.next.inj (hu₂.symm.trans hexec₂)
  refine ⟨hregs, fun name hname => ?_⟩
  rw [hsreg₁, hsreg₂]
  exact (hput name).eq_of_ne_kept hname _ _

end Sys2Proof.Machine
end

section
/-! PROOFS. Two instructions in a row. A sum with a carry over two bytes is made of two, the carry out of the low byte
entering the high one; so the flags of the second addition or subtraction are those of the whole 16-bit one
(44_add_sub.md rule R147). -/

namespace Sys2Proof.Machine

/-! ### Sums of two halves -/

theorem toNat_append_bytes (xh xl : Byte) : (xh ++ xl).toNat = 256 * xh.toNat + xl.toNat := by
  rw [BitVec.toNat_append, ← Nat.shiftLeft_add_eq_or_of_lt xl.isLt, Nat.shiftLeft_eq, Nat.mul_comm]

theorem getLsbD_append_bytes_top (xh xl : Byte) : (xh ++ xl).getLsbD 15 = xh.getLsbD 7 := by
  rw [BitVec.getLsbD_append, if_neg (by decide)]

/-- The carry out of a concatenation is that of the high half, which the carry out of the low half enters. -/
theorem carry_append_bytes (xh xl yh yl : Byte) (c : Bool) :
    BitVec.carry (w := 16) 16 (xh ++ xl) (yh ++ yl) c = BitVec.carry 8 xh yh (BitVec.carry 8 xl yl c) := by
  have hc := c.toNat_le
  simp only [BitVec.carry, BitVec.toNat_mod_cancel, toNat_append_bytes, decide_eq_decide]
  by_cases hlow : 2 ^ 8 ≤ xl.toNat + yl.toNat + c.toNat
  · rw [decide_eq_true hlow, Bool.toNat_true]
    omega
  · rw [decide_eq_false hlow, Bool.toNat_false]
    omega

/-- The sum of two concatenations, from the sums of the halves. -/
theorem IsSum.append {xh xl yh yl rh rl : Byte} {c chigh : Bool} (hlow : IsSum xl yl c rl)
    (hcarry : chigh = BitVec.carry 8 xl yl c) (hhigh : IsSum xh yh chigh rh) :
    IsSum (w := 16) (xh ++ xl) (yh ++ yl) c (rh ++ rl) := by
  have hl := hlow.mod_two_pow_add_carry (Nat.le_refl 8)
  have hh := hhigh.mod_two_pow_add_carry (Nat.le_refl 8)
  rw [← hcarry] at hl
  simp only [BitVec.toNat_mod_cancel] at hl hh
  apply BitVec.eq_of_toNat_eq
  simp only [BitVec.toNat_add, BitVec.toNat_setWidth, BitVec.toNat_ofBool, toNat_append_bytes]
  omega

theorem append_bytes_eq_zero_iff (xh xl : Byte) : xh ++ xl = 0x0000#16 ↔ xh = 0x00#8 ∧ xl = 0x00#8 := by
  simp only [← BitVec.toNat_inj, toNat_append_bytes, BitVec.toNat_ofNat]
  omega

theorem IsSum.add_eq {w : Nat} {x y r : BitVec w} (h : IsSum x y false r) : x + y = r := by
  rw [← h]
  simp

/-- The result's sign, turned round by overflow, is the sign of the true difference `a - b - c`, as `IsSum.sign_eq`. -/
theorem IsSum.borrow_sign_eq {n : Nat} {a b r : BitVec (n + 1)} {c : Bool} (h : IsSum r b c a) :
    (r.getLsbD n ^^ (a.getLsbD n != b.getLsbD n && r.getLsbD n != a.getLsbD n))
      = decide (a.toInt - b.toInt - c.toNat < 0) := by
  obtain ⟨hrlow, hrhigh, htop⟩ := toInt_range_of_top r
  obtain ⟨halow, hahigh, -⟩ := toInt_range_of_top a
  obtain ⟨hblow, hbhigh, -⟩ := toInt_range_of_top b
  have hc := c.toNat_le
  have hcases := signedExcess_cases (r.getLsbD n) (b.getLsbD n) (a.getLsbD n)
  have hsum := h.toInt_sum
  rw [h.borrow_overflow_eq, htop, Bool.eq_iff_iff, Bool.xor_iff_ne, ne_eq, decide_eq_decide, decide_eq_true_iff]
  generalize signedExcess (r.getLsbD n) (b.getLsbD n) (a.getLsbD n) = e at hsum hcases
  rcases hcases with rfl | rfl | rfl <;> omega

/-! ### ADD then ADC, SUB then SBC, as operations on words -/

/-- The first sum's carry entering the second, C, V, N and S of the second are those of the sum of the words. -/
theorem add8_append {al ah bl bh : Byte} {low high : Alu8} {a b : Word} (hlow : low = add8 al bl false)
    (hhigh : high = add8 ah bh low.c) (ha : a = ah ++ al) (hb : b = bh ++ bl) :
    high.r ++ low.r = a + b ∧ high.c = decide (65536 ≤ a.toNat + b.toNat)
      ∧ high.v = decide (a.toInt + b.toInt < -32768 ∨ 32767 < a.toInt + b.toInt)
      ∧ high.n = (a + b).getLsbD 15 ∧ high.s = decide (a.toInt + b.toInt < 0) := by
  have hcarry : low.c = BitVec.carry 8 al bl false := hlow ▸ add8_c_eq_carry al bl false
  have hsum : IsSum a b false (high.r ++ low.r) := by
    rw [ha, hb, hhigh]
    exact (hlow ▸ add8_isSum al bl false).append hcarry (add8_isSum ah bh low.c)
  have hc : high.c = BitVec.carry 16 a b false := by
    rw [ha, hb, carry_append_bytes, ← hcarry, hhigh, add8_c_eq_carry]
  have hv := hsum.overflow_eq (n := 15)
  have hs := hsum.sign_eq (n := 15)
  rw [ha, hb, getLsbD_append_bytes_top, getLsbD_append_bytes_top, getLsbD_append_bytes_top, ← ha, ← hb,
    Bool.toNat_false] at hv hs
  refine ⟨hsum.add_eq.symm, ?_, ?_, ?_, ?_⟩
  · rw [hc, BitVec.carry, BitVec.toNat_mod_cancel, BitVec.toNat_mod_cancel]
    rfl
  · rw [hhigh] at hv ⊢
    exact hv.trans (decide_eq_decide.2 (by omega))
  · rw [hsum.add_eq, getLsbD_append_bytes_top, hhigh]
    rfl
  · rw [hhigh] at hs ⊢
    exact hs.trans (decide_eq_decide.2 (by omega))

/-- As `add8_append`, of the sum that the two subtractions undo; the sticky Z is set when both bytes of the result are
0. -/
theorem sub8_append {al ah bl bh : Byte} {low high : Alu8} {a b : Word} (hlow : low = sub8 al bl false)
    (hhigh : high = sub8Sticky ah bh low.c low.z) (ha : a = ah ++ al) (hb : b = bh ++ bl) :
    high.r ++ low.r = a - b ∧ high.c = decide (a.toNat < b.toNat) ∧ high.z = decide (a = b)
      ∧ high.v = decide (a.toInt - b.toInt < -32768 ∨ 32767 < a.toInt - b.toInt)
      ∧ high.n = (a - b).getLsbD 15 ∧ high.s = decide (a.toInt < b.toInt) := by
  have hcarry : low.c = BitVec.carry 8 low.r bl false := hlow ▸ sub8_c_eq_carry al bl false
  have hsum : IsSum (high.r ++ low.r) b false a := by
    rw [ha, hb, hhigh]
    exact (hlow ▸ sub8_isSum al bl false : IsSum low.r bl false al).append hcarry (sub8_isSum ah bh low.c)
  have hdiff : high.r ++ low.r = a - b := eq_sub_of_add_eq hsum.add_eq
  have hc : high.c = BitVec.carry 16 (high.r ++ low.r) b false := by
    rw [hb, carry_append_bytes, ← hcarry, hhigh]
    exact sub8_c_eq_carry ah bh low.c
  have hz : high.z = decide (a = b) := by
    have hhighz : high.z = (decide (high.r = 0x00#8) && low.z) := by rw [hhigh, sub8Sticky_eq]
    rw [hhighz, hlow, sub8_z_eq, ← hlow, ← Bool.decide_and, decide_eq_decide, ← append_bytes_eq_zero_iff, hdiff]
    exact sub_eq_zero
  have hv := hsum.borrow_overflow_eq (n := 15)
  have hs := hsum.borrow_sign_eq (n := 15)
  rw [ha, hb, getLsbD_append_bytes_top, getLsbD_append_bytes_top, getLsbD_append_bytes_top, ← ha, ← hb,
    Bool.toNat_false] at hv hs
  refine ⟨hdiff, ?_, hz, ?_, ?_, ?_⟩
  · rw [hc, hsum.carry_eq_borrow (Nat.le_refl 16), BitVec.toNat_mod_cancel, BitVec.toNat_mod_cancel]
    rfl
  · rw [hhigh] at hv ⊢
    exact hv.trans (decide_eq_decide.2 (by omega))
  · rw [← hdiff, getLsbD_append_bytes_top, hhigh]
    rfl
  · rw [hhigh] at hs ⊢
    exact hs.trans (decide_eq_decide.2 (by omega))

/-! ### The two instructions -/

/-- The frame of two instructions in a row: their destinations together, and the counter moved twice. -/
theorem KeepsRest.trans {ds es : List RegNum} {s u t : State} (hsu : KeepsRest ds s u) (hut : KeepsRest es u t) :
    KeepsRest (ds ++ es) { s with pc := (s.pc + 1) % 2 ^ s.dev.pcBits } t := by
  obtain ⟨hx, hbyte, hdev, hi, ht, hpc⟩ := hsu
  obtain ⟨hx', hbyte', hdev', hi', ht', hpc'⟩ := hut
  refine ⟨fun j hj => ?_, fun a => (hbyte' a).trans (hbyte a), hdev'.trans hdev, hi'.trans hi, ht'.trans ht, ?_⟩
  · rw [List.mem_append, not_or] at hj
    exact (hx' j hj.2).trans (hx j hj.1)
  · rw [hpc', hpc, hdev]

/-- What an instruction that ends in a writeback leaves in its destination and in the flags. -/
theorem x_sreg_of_writeback {out : Result} {s t : State} {d : RegNum} {r : Byte} {f : Sreg}
    (hout : out = .next (s.writeback d r f)) (h : out = .next t) : t.x d = r ∧ t.sreg = f := by
  obtain rfl : s.writeback d r f = t := Host.Outcome.next.inj (hout.symm.trans h)
  exact ⟨by rw [State.writeback_x, if_pos rfl], rfl⟩

/-- An instruction on the low byte and one on the high byte: the second finds its operands as they were, which are not
the first destination, and leaves the first result. -/
theorem keeps_of_low_then_high {i j : Instr} {al ah bh : RegNum} {s s₁ s₂ : State} (hah : ah ≠ al) (hbh : bh ≠ al)
    (hi : destinations i = [al]) (hj : destinations j = [ah]) (hexec₁ : exec i s = .next s₁)
    (hexec₂ : exec j s₁ = .next s₂) :
    s₁.x ah = s.x ah ∧ s₁.x bh = s.x bh ∧ s₂.x al = s₁.x al
      ∧ KeepsRest [al, ah] { s with pc := (s.pc + 1) % 2 ^ s.dev.pcBits } s₂ := by
  have hkeep₁ : KeepsRest [al] s s₁ := hi ▸ exec_keepsRest hexec₁
  have hkeep₂ : KeepsRest [ah] s₁ s₂ := hj ▸ exec_keepsRest hexec₂
  have ⟨hx₁, _⟩ := hkeep₁
  have ⟨hx₂, _⟩ := hkeep₂
  exact ⟨hx₁ ah (by simpa using hah), hx₁ bh (by simpa using hbh), hx₂ al (by simpa using hah.symm),
    hkeep₁.trans hkeep₂⟩

/-- Settles O39: ADC adds the high bytes as they were, with ADD's carry. -/
theorem addThenAdcAddsSixteenBits : Obligations.AddThenAdcAddsSixteenBits := by
  intro al ah bl bh s s₁ s₂ hah hbh hadd hadc a b ha hb
  obtain ⟨hlow, hsreg₁⟩ := x_sreg_of_writeback (exec_add al bl s) hadd
  obtain ⟨hhigh, hsreg₂⟩ := x_sreg_of_writeback (exec_adc ah bh s₁) hadc
  obtain ⟨hxah, hxbh, hxal, hkeep⟩ := keeps_of_low_then_high hah hbh rfl rfl hadd hadc
  rw [hxah, hxbh, hsreg₁] at hhigh hsreg₂
  obtain ⟨hr, hc, hv, hn, hs⟩ := add8_append rfl rfl ha hb
  rw [hxal, hhigh, hlow, hsreg₂]
  exact ⟨hr, hc, hv, hn, hs, hkeep⟩

/-- Settles O40: as O39, with SUB's borrow and SUB's Z read by SBC. -/
theorem subThenSbcSubtractsSixteenBits : Obligations.SubThenSbcSubtractsSixteenBits := by
  intro al ah bl bh s s₁ s₂ hah hbh hsub hsbc a b ha hb
  obtain ⟨hlow, hsreg₁⟩ := x_sreg_of_writeback (exec_sub al bl s) hsub
  obtain ⟨hhigh, hsreg₂⟩ := x_sreg_of_writeback (exec_sbc ah bh s₁) hsbc
  obtain ⟨hxah, hxbh, hxal, hkeep⟩ := keeps_of_low_then_high hah hbh rfl rfl hsub hsbc
  rw [hxah, hxbh, hsreg₁] at hhigh hsreg₂
  obtain ⟨hr, hc, hz, hv, hn, hs⟩ := sub8_append rfl rfl ha hb
  rw [hxal, hhigh, hlow, hsreg₂]
  exact ⟨hr, hc, hz, hv, hn, hs, hkeep⟩

/-! ### Pairs of instructions that undo each other (46_complement.md rule R160) -/

/-- A shift left undone by a shift right: the bit that left enters again, and the bit that entered leaves. -/
theorem consShift_shiftConcat {n : Nat} (a : BitVec (n + 1)) (b : Bool) :
    consShift (a.getLsbD n) (a.shiftConcat b) = a := by
  apply BitVec.eq_of_getLsbD_eq
  intro k hk
  rcases Nat.lt_succ_iff_lt_or_eq.1 hk with hlt | rfl
  · rw [getLsbD_consShift_of_lt _ _ hlt, getLsbD_shiftConcat_succ a b hlt]
  · exact getLsbD_consShift_top _ _

/-- Settles O45: each result undone by the second instruction; NEG's is the two's complement, one more than COM's. -/
theorem inversePairsGiveTheRegisterBack : Obligations.InversePairsGiveTheRegisterBack := by
  intro d s s₁ s₂
  refine ⟨fun h₁ h₂ => ?_, fun h₁ h₂ => ?_, fun h₁ h₂ => ?_, fun h₁ h₂ => ?_, fun h₁ h₂ => ?_⟩
  · obtain ⟨hx₁, -⟩ := x_sreg_of_writeback (exec_com d s) h₁
    obtain ⟨hx₂, -⟩ := x_sreg_of_writeback (exec_com d s₁) h₂
    rw [hx₂, hx₁, BitVec.not_not]
  · obtain ⟨hx₁, -⟩ := x_sreg_of_writeback (exec_neg_eq_sub8 d s) h₁
    obtain ⟨hx₂, -⟩ := x_sreg_of_writeback (exec_neg_eq_sub8 d s₁) h₂
    rw [hx₂, hx₁, sub8_zero_r, sub8_zero_r, neg_neg]
  · obtain ⟨hx₁, -⟩ := x_sreg_of_writeback (exec_inc d s) h₁
    obtain ⟨hx₂, -⟩ := x_sreg_of_writeback (exec_dec d s₁) h₂
    rw [hx₂, hx₁, BitVec.add_sub_cancel]
  · obtain ⟨hx₁, -⟩ := x_sreg_of_writeback (exec_com d s) h₁
    obtain ⟨hx₂, -⟩ := x_sreg_of_writeback (exec_neg_eq_sub8 d s) h₂
    rw [hx₂, hx₁, sub8_zero_r, BitVec.neg_eq_not_add]
  · obtain ⟨hx₁, hsreg₁⟩ := x_sreg_of_writeback (exec_rol d s) h₁
    obtain ⟨hx₂, hsreg₂⟩ := x_sreg_of_writeback (exec_ror d s₁) h₂
    have hc₁ : s₁.sreg.c = (s.x d).getLsbD 7 := by rw [hsreg₁]; rfl
    have hc₂ : s₂.sreg.c = (s₁.x d).getLsbD 0 := by rw [hsreg₂]; rfl
    rw [extractLsb'_append_ofBool (s.x d)] at hx₁
    rw [hx₂, hc₂, hc₁, hx₁]
    exact ⟨consShift_shiftConcat (s.x d) s.sreg.c, getLsbD_shiftConcat_zero (s.x d) s.sreg.c⟩

end Sys2Proof.Machine

/-! ### Cycles (70_reset_and_hazards.md rule R231) -/

namespace Sys2Proof

theorem cycles_eq (i : Instr) : i.cycles = if i.mnemonic = "ADIW" ∨ i.mnemonic = "SBIW" then 2 else 1 := by
  cases i with
  | adiw dl k => exact (if_pos (.inl rfl)).symm
  | sbiw dl k => exact (if_pos (.inr rfl)).symm
  | _ => simp [Instr.cycles, Instr.mnemonic]

theorem cycles_eq_one_or_two (i : Instr) : i.cycles = 1 ∨ i.cycles = 2 := by
  rw [cycles_eq]
  split <;> simp

theorem cyclesOf_cons (i : Instr) (is : List Instr) : cyclesOf (i :: is) = i.cycles + cyclesOf is := by
  rw [cyclesOf, List.map_cons, List.sum_cons, cyclesOf]

/-- Settles O46: by induction on the list, of which each instruction is counted once, as its cycles say. -/
theorem straightLineCyclesAreCounted : Obligations.StraightLineCyclesAreCounted := by
  refine ⟨cycles_eq, fun is => ?_⟩
  induction is with
  | nil => rfl
  | cons i is ih =>
    rw [cyclesOf_cons, ih]
    rcases cycles_eq_one_or_two i with hi | hi <;> simp [hi] <;> omega

end Sys2Proof
end
